-- ==== Sys2Proof/Word.lean ====
section
/-! DEFINITION. The word types of the hardware: bytes, 16-bit words, register indices, and the 4096-cell reduction. -/

namespace Sys2Proof

/-- An 8-bit value: a memory cell, a general register, a timer, an immediate `kk` (R11, R21, R38). -/
abbrev Byte := BitVec 8

/-- A 16-bit value: an instruction word, the storage of `pc` and `I`, a stack entry (R11, R25, R27, R30). -/
abbrev Word := BitVec 16

/-- The index of a general register, 0 to 15: V0 to VF (R21). -/
abbrev Reg := Fin 16

/-- VF, the register some instructions write as a flag (R23). -/
abbrev vf : Reg := 15

/-- The number of memory cells, MEM_SIZE of R6; addresses are reduced modulo this number (R26, R28, R62, R63). -/
abbrev memSize : Nat := 4096

end Sys2Proof
end

