-- ==== Sys2Proof/Syntax.lean ====
section
/-! DEFINITION. The instructions: one constructor per row of spec/opcode_table.json (R96, 34 rows). -/

namespace Sys2Proof

/-- The instruction set of R96, in the table's order. `x` and `y` name general registers, `kk` is an immediate byte,
`n` a row count 0 to 15, and `nnn` a 12-bit address held in a 16-bit word (WellFormed checks that it is below 4096). -/
inductive Instr where
  /-- `00E0` CLS: clear display (R213). -/
  | cls
  /-- `00EE` RET: return from subroutine (R144). -/
  | ret
  /-- `1nnn` JP nnn: jump (R142). -/
  | jp (nnn : Word)
  /-- `2nnn` CALL nnn: call subroutine (R143). -/
  | call (nnn : Word)
  /-- `3xkk` SE Vx, kk: skip if Vx = kk (R151). -/
  | seImm (x : Reg) (kk : Byte)
  /-- `4xkk` SNE Vx, kk: skip if Vx ≠ kk (R152). -/
  | sneImm (x : Reg) (kk : Byte)
  /-- `5xy0` SE Vx, Vy: skip if Vx = Vy (R153). -/
  | seReg (x y : Reg)
  /-- `6xkk` LD Vx, kk: load immediate (R160). -/
  | ldImm (x : Reg) (kk : Byte)
  /-- `7xkk` ADD Vx, kk: add immediate, no flag (R161). -/
  | addImm (x : Reg) (kk : Byte)
  /-- `8xy0` LD Vx, Vy (R172). -/
  | ldReg (x y : Reg)
  /-- `8xy1` OR Vx, Vy (R173). -/
  | orReg (x y : Reg)
  /-- `8xy2` AND Vx, Vy (R174). -/
  | andReg (x y : Reg)
  /-- `8xy3` XOR Vx, Vy (R175). -/
  | xorReg (x y : Reg)
  /-- `8xy4` ADD Vx, Vy: VF := carry (R176). -/
  | addReg (x y : Reg)
  /-- `8xy5` SUB Vx, Vy: VF := Vx > Vy (R177). -/
  | subReg (x y : Reg)
  /-- `8xy6` SHR Vx: VF := bit 0; the field `y` is decoded and ignored (R178, R97). -/
  | shr (x y : Reg)
  /-- `8xy7` SUBN Vx, Vy: VF := Vy > Vx (R179). -/
  | subnReg (x y : Reg)
  /-- `8xyE` SHL Vx: VF := Vx & 0x80; the field `y` is decoded and ignored (R180, R97). -/
  | shl (x y : Reg)
  /-- `9xy0` SNE Vx, Vy: skip if Vx ≠ Vy (R154). -/
  | sneReg (x y : Reg)
  /-- `Annn` LD I, nnn (R190). -/
  | ldI (nnn : Word)
  /-- `Bnnn` JP V0, nnn: jump to nnn + V0 (R145). -/
  | jpV0 (nnn : Word)
  /-- `Cxkk` RND Vx, kk: random byte and kk (R243). -/
  | rnd (x : Reg) (kk : Byte)
  /-- `Dxyn` DRW Vx, Vy, n: draw an n-row sprite (R214). -/
  | drw (x y : Reg) (n : Fin 16)
  /-- `Ex9E` SKP Vx: skip if key Vx is down (R222). -/
  | skp (x : Reg)
  /-- `ExA1` SKNP Vx: skip if key Vx is up (R223). -/
  | sknp (x : Reg)
  /-- `Fx07` LD Vx, DT (R240). -/
  | ldVxDt (x : Reg)
  /-- `Fx0A` LD Vx, K: wait for a key (R225). -/
  | ldVxK (x : Reg)
  /-- `Fx15` LD DT, Vx (R241). -/
  | ldDtVx (x : Reg)
  /-- `Fx18` LD ST, Vx (R242). -/
  | ldStVx (x : Reg)
  /-- `Fx1E` ADD I, Vx (R191). -/
  | addI (x : Reg)
  /-- `Fx29` LD F, Vx: glyph address (R192). -/
  | ldF (x : Reg)
  /-- `Fx33` LD B, Vx: decimal digits to memory (R193). -/
  | ldB (x : Reg)
  /-- `Fx55` LD [I], Vx: store V0 to Vx (R194). -/
  | stRegs (x : Reg)
  /-- `Fx65` LD Vx, [I]: load V0 to Vx (R195). -/
  | ldRegs (x : Reg)
  deriving DecidableEq, Repr

end Sys2Proof
end

