-- ==== Sys2Proof/WellFormed.lean ====
section
/-! DEFINITION. Which instructions are well formed: the operand ranges of R94 that the types of the operands do not
already impose. Registers, `kk` and `n` have exact types; `nnn` is held in a 16-bit word and must be a 12-bit address. -/

namespace Sys2Proof

/-- "`nnn` is a 12-bit address 0 to 4095" (R94). -/
def addressOk (nnn : Word) : Bool := nnn.toNat < memSize

/-- The check of every constructor, one arm each (R94, R96). -/
def wellFormed (i : Instr) : Bool :=
  match i with
  | .cls => true
  | .ret => true
  | .jp nnn => addressOk nnn
  | .call nnn => addressOk nnn
  | .seImm _ _ => true
  | .sneImm _ _ => true
  | .seReg _ _ => true
  | .ldImm _ _ => true
  | .addImm _ _ => true
  | .ldReg _ _ => true
  | .orReg _ _ => true
  | .andReg _ _ => true
  | .xorReg _ _ => true
  | .addReg _ _ => true
  | .subReg _ _ => true
  | .shr _ _ => true
  | .subnReg _ _ => true
  | .shl _ _ => true
  | .sneReg _ _ => true
  | .ldI nnn => addressOk nnn
  | .jpV0 nnn => addressOk nnn
  | .rnd _ _ => true
  | .drw _ _ _ => true
  | .skp _ => true
  | .sknp _ => true
  | .ldVxDt _ => true
  | .ldVxK _ => true
  | .ldDtVx _ => true
  | .ldStVx _ => true
  | .addI _ => true
  | .ldF _ => true
  | .ldB _ => true
  | .stRegs _ => true
  | .ldRegs _ => true

/-- An instruction whose operands are all in the ranges the encoding admits. -/
abbrev WellFormed (i : Instr) : Prop := wellFormed i = true

end Sys2Proof
end

