-- ==== Sys2Proof/Decode.lean ====
section
/-! DEFINITION. The decoder, in the two levels of R95 and R123, and the encoder, from the opcode map of R96. -/

namespace Sys2Proof

/-- Why bytes are not an instruction. -/
inductive DecodeError where
  /-- Fewer than the two bytes every instruction has (R90). -/
  | truncated
  /-- The word matches no row of R96 (R98); the machine raises `UnknownOpcode` for it (R261). -/
  | unknownOpcode (op : Word)
  deriving DecidableEq, Repr

/-- What the decoder answers: an instruction, or a rejection by name. -/
inductive Decoded where
  | instr (i : Instr)
  | rejected (why : DecodeError)
  deriving DecidableEq, Repr

/-! ### The fields of the instruction word (R92) -/

/-- The register a 4-bit field names; all 16 values are legal (R94). -/
def regOfBits (b : BitVec 4) : Reg := ⟨b.toNat, b.isLt⟩

/-- The 4-bit field that names a register (R92). -/
def bitsOfReg (r : Reg) : BitVec 4 := BitVec.ofNat 4 r.val

/-- `family = op[15:12]` (R92). -/
def fieldFamily (op : Word) : BitVec 4 := op.extractLsb' 12 4

/-- `x = op[11:8]` (R92). -/
def fieldX (op : Word) : Reg := regOfBits (op.extractLsb' 8 4)

/-- `y = op[7:4]` (R92). -/
def fieldY (op : Word) : Reg := regOfBits (op.extractLsb' 4 4)

/-- `n = op[3:0]` as a sub-opcode (R92). -/
def fieldN (op : Word) : BitVec 4 := op.extractLsb' 0 4

/-- `kk = op[7:0]` (R92). -/
def fieldKk (op : Word) : Byte := op.extractLsb' 0 8

/-- `nnn = op[11:0]`, used as is: zero extended to the 16 bits of storage (R92, R94). -/
def fieldNnn (op : Word) : Word := (op.extractLsb' 0 12).setWidth 16

/-! ### The second level of decoding, family by family (R95, R98, R123) -/

/-- Family 0 compares the whole word; every other `0nnn` is illegal (R95, R100). -/
def decodeFamily0 (op : Word) : Decoded :=
  if op = 0x00E0#16 then .instr .cls
  else if op = 0x00EE#16 then .instr .ret
  else .rejected (.unknownOpcode op)

/-- Family 5 has one instruction, with `n = 0` (R101). -/
def decodeFamily5 (op : Word) : Decoded :=
  if fieldN op = 0x0#4 then .instr (.seReg (fieldX op) (fieldY op)) else .rejected (.unknownOpcode op)

/-- Family 8, the ALU family, is selected by `n`; 8, 9, A, B, C, D and F are illegal (R170, R183). -/
def decodeFamily8 (op : Word) : Decoded :=
  if fieldN op = 0x0#4 then .instr (.ldReg (fieldX op) (fieldY op))
  else if fieldN op = 0x1#4 then .instr (.orReg (fieldX op) (fieldY op))
  else if fieldN op = 0x2#4 then .instr (.andReg (fieldX op) (fieldY op))
  else if fieldN op = 0x3#4 then .instr (.xorReg (fieldX op) (fieldY op))
  else if fieldN op = 0x4#4 then .instr (.addReg (fieldX op) (fieldY op))
  else if fieldN op = 0x5#4 then .instr (.subReg (fieldX op) (fieldY op))
  else if fieldN op = 0x6#4 then .instr (.shr (fieldX op) (fieldY op))
  else if fieldN op = 0x7#4 then .instr (.subnReg (fieldX op) (fieldY op))
  else if fieldN op = 0xE#4 then .instr (.shl (fieldX op) (fieldY op))
  else .rejected (.unknownOpcode op)

/-- Family 9 has one instruction, with `n = 0` (R101). -/
def decodeFamily9 (op : Word) : Decoded :=
  if fieldN op = 0x0#4 then .instr (.sneReg (fieldX op) (fieldY op)) else .rejected (.unknownOpcode op)

/-- Family E: exactly one of the two key skips or illegal, by `kk` alone (R102). -/
def decodeFamilyE (op : Word) : Decoded :=
  if fieldKk op = 0x9E#8 then .instr (.skp (fieldX op))
  else if fieldKk op = 0xA1#8 then .instr (.sknp (fieldX op))
  else .rejected (.unknownOpcode op)

/-- Family F is selected by `kk` (R95, R123). -/
def decodeFamilyF (op : Word) : Decoded :=
  if fieldKk op = 0x07#8 then .instr (.ldVxDt (fieldX op))
  else if fieldKk op = 0x0A#8 then .instr (.ldVxK (fieldX op))
  else if fieldKk op = 0x15#8 then .instr (.ldDtVx (fieldX op))
  else if fieldKk op = 0x18#8 then .instr (.ldStVx (fieldX op))
  else if fieldKk op = 0x1E#8 then .instr (.addI (fieldX op))
  else if fieldKk op = 0x29#8 then .instr (.ldF (fieldX op))
  else if fieldKk op = 0x33#8 then .instr (.ldB (fieldX op))
  else if fieldKk op = 0x55#8 then .instr (.stRegs (fieldX op))
  else if fieldKk op = 0x65#8 then .instr (.ldRegs (fieldX op))
  else .rejected (.unknownOpcode op)

/-- The first level of decoding: the family picks exactly one handler (R95, R123). -/
def decodeWord (op : Word) : Decoded :=
  if fieldFamily op = 0x0#4 then decodeFamily0 op
  else if fieldFamily op = 0x1#4 then .instr (.jp (fieldNnn op))
  else if fieldFamily op = 0x2#4 then .instr (.call (fieldNnn op))
  else if fieldFamily op = 0x3#4 then .instr (.seImm (fieldX op) (fieldKk op))
  else if fieldFamily op = 0x4#4 then .instr (.sneImm (fieldX op) (fieldKk op))
  else if fieldFamily op = 0x5#4 then decodeFamily5 op
  else if fieldFamily op = 0x6#4 then .instr (.ldImm (fieldX op) (fieldKk op))
  else if fieldFamily op = 0x7#4 then .instr (.addImm (fieldX op) (fieldKk op))
  else if fieldFamily op = 0x8#4 then decodeFamily8 op
  else if fieldFamily op = 0x9#4 then decodeFamily9 op
  else if fieldFamily op = 0xA#4 then .instr (.ldI (fieldNnn op))
  else if fieldFamily op = 0xB#4 then .instr (.jpV0 (fieldNnn op))
  else if fieldFamily op = 0xC#4 then .instr (.rnd (fieldX op) (fieldKk op))
  else if fieldFamily op = 0xD#4 then .instr (.drw (fieldX op) (fieldY op) (regOfBits (fieldN op)))
  else if fieldFamily op = 0xE#4 then decodeFamilyE op
  else decodeFamilyF op

/-- The instruction word of two bytes, the one at the lower address in the high half (R64, R91). -/
def wordOfBytes (hi lo : Byte) : Word := (hi ++ lo : BitVec (8 + 8))

/-- The decoder on any bytes: the first instruction and the bytes after it (R90: always two). -/
def decode (bytes : List Byte) : Decoded × List Byte :=
  match bytes with
  | hi :: lo :: rest => (decodeWord (wordOfBytes hi lo), rest)
  | short => (.rejected .truncated, short)

/-! ### The encoder (R93, R96) -/

/-- Format ADDR: family(4) nnn(12) (R93). -/
def encodeAddr (family : BitVec 4) (nnn : Word) : Word := (family ++ nnn.setWidth 12 : BitVec (4 + 12))

/-- Formats RIMM and RFUN: family(4) x(4) kk(8) (R93). -/
def encodeRegByte (family : BitVec 4) (x : Reg) (kk : Byte) : Word := (family ++ bitsOfReg x ++ kk : BitVec (4 + 4 + 8))

/-- Formats RR and DRAW: family(4) x(4) y(4) n(4) (R93). -/
def encodeRegReg (family : BitVec 4) (x y : Reg) (n : BitVec 4) : Word :=
  (family ++ bitsOfReg x ++ bitsOfReg y ++ n : BitVec (4 + 4 + 4 + 4))

/-- The word of an instruction (R96). -/
def encode (i : Instr) : Word :=
  match i with
  | .cls => 0x00E0#16
  | .ret => 0x00EE#16
  | .jp nnn => encodeAddr 0x1#4 nnn
  | .call nnn => encodeAddr 0x2#4 nnn
  | .seImm x kk => encodeRegByte 0x3#4 x kk
  | .sneImm x kk => encodeRegByte 0x4#4 x kk
  | .seReg x y => encodeRegReg 0x5#4 x y 0x0#4
  | .ldImm x kk => encodeRegByte 0x6#4 x kk
  | .addImm x kk => encodeRegByte 0x7#4 x kk
  | .ldReg x y => encodeRegReg 0x8#4 x y 0x0#4
  | .orReg x y => encodeRegReg 0x8#4 x y 0x1#4
  | .andReg x y => encodeRegReg 0x8#4 x y 0x2#4
  | .xorReg x y => encodeRegReg 0x8#4 x y 0x3#4
  | .addReg x y => encodeRegReg 0x8#4 x y 0x4#4
  | .subReg x y => encodeRegReg 0x8#4 x y 0x5#4
  | .shr x y => encodeRegReg 0x8#4 x y 0x6#4
  | .subnReg x y => encodeRegReg 0x8#4 x y 0x7#4
  | .shl x y => encodeRegReg 0x8#4 x y 0xE#4
  | .sneReg x y => encodeRegReg 0x9#4 x y 0x0#4
  | .ldI nnn => encodeAddr 0xA#4 nnn
  | .jpV0 nnn => encodeAddr 0xB#4 nnn
  | .rnd x kk => encodeRegByte 0xC#4 x kk
  | .drw x y n => encodeRegReg 0xD#4 x y (bitsOfReg n)
  | .skp x => encodeRegByte 0xE#4 x 0x9E#8
  | .sknp x => encodeRegByte 0xE#4 x 0xA1#8
  | .ldVxDt x => encodeRegByte 0xF#4 x 0x07#8
  | .ldVxK x => encodeRegByte 0xF#4 x 0x0A#8
  | .ldDtVx x => encodeRegByte 0xF#4 x 0x15#8
  | .ldStVx x => encodeRegByte 0xF#4 x 0x18#8
  | .addI x => encodeRegByte 0xF#4 x 0x1E#8
  | .ldF x => encodeRegByte 0xF#4 x 0x29#8
  | .ldB x => encodeRegByte 0xF#4 x 0x33#8
  | .stRegs x => encodeRegByte 0xF#4 x 0x55#8
  | .ldRegs x => encodeRegByte 0xF#4 x 0x65#8

/-- The two bytes of a word as they lie in memory: the high byte at the lower address (R64). -/
def bytesOfWord (op : Word) : List Byte := [op.extractLsb' 8 8, op.extractLsb' 0 8]

/-- The bytes of an instruction in memory order (R64, R96). -/
def encodeBytes (i : Instr) : List Byte := bytesOfWord (encode i)

/-! ### The opcode table's numbering -/

/-- The bytes of an instruction whose low `nbits` bits are those of `w` in the opcode table's numbering, the rest 0:
one 16-bit word (R90), laid out high byte first (R64). -/
def tableBytes (nbits w : Nat) : List Byte := bytesOfWord (BitVec.ofNat 16 (w % 2 ^ nbits))

/-- The instruction the decoder reads from the table's word `w`; `none` where the decoder rejects it. -/
def decodeTableWord (nbits w : Nat) : Option Instr :=
  match (decode (tableBytes nbits w)).1 with
  | .instr i => some i
  | .rejected _ => none

end Sys2Proof
end

