-- ==== Sys2Proof/Config.lean ====
section
/-! DEFINITION. What the spec leaves to an implementation or to the environment and the model takes as an opaque constant:
the random draws (a free value) and the tone frequency (an open parameter). The other open parameters of R7 stand elsewhere:
SPEED is the argument of `Machine.runBatch`; DISPLAY_W and DISPLAY_H are fields of the display record of the state;
TICK_HZ is timing and no rule depends on it (R305), so the model has no name for it. -/

namespace Sys2Proof

/-- FREE VALUE: the byte the random source returns at its k-th draw (R42, R243, R249; U14 of 93).
Nothing constrains it, so a claim about a program that draws holds for every value of every draw.
The counter `draws` of the state picks the draw. Log entry 8. -/
opaque Config.randomByte : Nat → Byte

/-- OPEN PARAMETER: TONE_FREQ, the argument of `tone_on` (R7, R247). Opaque: the source names it and gives no value.
Log entry 9. -/
opaque Config.toneFreq : Nat

end Sys2Proof
end

