-- ==== Sys2Proof/Machine/State.lean ====
section
/-! DEFINITION. The state of the machine as plain data: the ten items of the core (R20), the tone latch (R37), the state
of the environment the core can observe (R40 to R42), and the model's own bookkeeping; and the state after reset. -/

namespace Sys2Proof.Machine

/-- The four error conditions (R260). Each is a state of the machine (`fault`), never an outcome of the host's kind `fault`. -/
inductive ErrorCode where
  /-- Raised by `load_program` for a bad length (R278). -/
  | invalidProgram
  /-- Raised by `2nnn` with 16 entries in use (R143). -/
  | stackOverflow
  /-- Raised by `00EE` with no entry in use (R144). -/
  | stackUnderflow
  /-- Raised by the dispatcher for a word that is no instruction (R98). -/
  | unknownOpcode
  deriving DecidableEq, Repr

/-- Memory as (address, byte) pairs, addresses strictly rising; an unlisted address reads as `resetByte` of it (R38, R44). -/
abbrev Memory := List Host.Cell

/-- The display collaborator: its size and its lit pixels, by index `y * width + x`, strictly rising (R40, R211). -/
structure Display where
  /-- DISPLAY_W of R7. -/
  width : Nat
  /-- DISPLAY_H of R7. -/
  height : Nat
  /-- The lit cells of the bitmap. -/
  lit : List Nat
  deriving DecidableEq, Repr

/-- A command of the environment to the core (R8), or the one environment change the core can observe without a command:
the keys going up and down (R41). `run_batch` is no constructor: it is `runBatch`, built from `step` and `tick` (R125). -/
inductive Command where
  /-- `reset` (R290). -/
  | reset
  /-- `load_program(bytes)` (R296). -/
  | loadProgram (bytes : List Byte)
  /-- `step` (R120). -/
  | step
  /-- `tick` (R245). -/
  | tick
  /-- `key_down(k)`, 0 ≤ k ≤ 15 (R221, R227). -/
  | keyDown (k : Fin 16)
  /-- The key states `pressed[0..15]` become these (R41, R220). -/
  | setKeys (pressed : Vector Bool 16)
  deriving DecidableEq, Repr

/-- What a tick sends to the speaker (R245, R247). -/
inductive SpeakerSignal where
  /-- `speaker.tone_on(f)`. -/
  | toneOn (frequency : Nat)
  /-- `speaker.tone_off()`. -/
  | toneOff
  deriving DecidableEq, Repr

/-- The state. The first group is the core (R20, R37), the second its environment (R40 to R42), the third the model's own. -/
structure State where
  /-- The 4096 cells (R38). -/
  mem : Memory
  /-- V0 to VF (R21). -/
  v : Vector Byte 16
  /-- The index register: 16 bits of storage, value below 4096 (R25, R26). -/
  i : Word
  /-- The program counter: 16 bits of storage, value below 4096 (R27, R28). -/
  pc : Word
  /-- The call stack's sixteen entries (R30). -/
  stack : Vector Word 16
  /-- The stack depth, 0 to 16 (R31). -/
  sp : Fin 17
  /-- The delay timer (R32). -/
  dt : Byte
  /-- The sound timer (R33). -/
  st : Byte
  /-- The wait registration: `some r` is WaitingForKey(r) (R34). -/
  wait : Option Reg
  /-- The error status: not `none` is Halted (R35, R263). -/
  fault : Option ErrorCode
  /-- The word of the instruction that raised the error (R36). -/
  faultOp : Word
  /-- The address that word was fetched from (R36). -/
  faultPc : BitVec 12
  /-- The tone output latch (R37). -/
  tone : Bool
  /-- Environment: the display collaborator (R40, R211). -/
  display : Display
  /-- Environment: the key states `pressed[0..15]` (R41). -/
  keys : Vector Bool 16
  /-- Model's own: how many random bytes have been drawn; picks the next free value (R42, log entry 8). -/
  draws : Nat
  /-- Model's own: no load and no step since reset, so that `load_program` may come (R294, log entry 4). -/
  loadable : Bool
  /-- Model's own: the commands the environment issues next, oldest first; when there is none it issues `step`
  (R8, log entry 2). -/
  pending : List Command
  deriving DecidableEq, Repr

/-- Why a step of the model could end without a next state by a fault: never. The four errors of R260 are next states
(the machine takes the error: R262, R263), every address is valid (R62), and no other failure exists (R261).
No constructor, so nothing raises one. -/
inductive Fault where
  deriving DecidableEq, Repr

/-- Why the model gives no next state. -/
inductive Refusal where
  /-- Raised by an arm of `exec` that has no meaning yet: safe (no arm raises it now). -/
  | notModelled (mnemonic : String)
  /-- Raised by the command `load_program` after the first step or a second time: "outside what the source describes;
  a model refuses it" (R294, U21). Safe: no run goes on from there. No instruction raises it. -/
  | loadOutsideBoot
  /-- Raised by `runBatch 0`: "N = 0 is not described by the source and a model refuses it" (R7, U24). Safe. -/
  | zeroSpeed
  deriving DecidableEq, Repr

/-- The machine right after reset (R44, R290), with the environment of R293: blank display, no key down. -/
def State.reset : State where
  mem := []
  v := Vector.replicate 16 0
  i := 0
  pc := 0x200
  stack := Vector.replicate 16 0
  sp := 0
  dt := 0
  st := 0
  wait := none
  fault := none
  faultOp := 0
  faultPc := 0
  tone := false
  display := { width := 64, height := 32, lit := [] }
  keys := Vector.replicate 16 false
  draws := 0
  loadable := true
  pending := []

end Sys2Proof.Machine
end

