-- ==== Sys2Proof/Machine/Ops.lean ====
section
/-! DEFINITION. The named operations over memory, registers, the call stack and the environment's ports; taking an error;
and the reset command, the only way out of one. Every instruction is written over these. -/

namespace Sys2Proof.Machine

/-- What `exec`, `step` and the commands answer. -/
abbrev Result := Host.Outcome State Fault Refusal

/-! ### The reset contents of memory (R44, R292) -/

/-- The five rows of a digit's glyph (R292). Digit 0 is the source's own; the others the spec takes from general
knowledge (its decision D7; log entry 10). -/
def fontGlyph (digit : Nat) : List Byte :=
  match digit with
  | 0x0 => [0xF0, 0x90, 0x90, 0x90, 0xF0]
  | 0x1 => [0x20, 0x60, 0x20, 0x20, 0x70]
  | 0x2 => [0xF0, 0x10, 0xF0, 0x80, 0xF0]
  | 0x3 => [0xF0, 0x10, 0xF0, 0x10, 0xF0]
  | 0x4 => [0x90, 0x90, 0xF0, 0x10, 0x10]
  | 0x5 => [0xF0, 0x80, 0xF0, 0x10, 0xF0]
  | 0x6 => [0xF0, 0x80, 0xF0, 0x90, 0xF0]
  | 0x7 => [0xF0, 0x10, 0x20, 0x40, 0x40]
  | 0x8 => [0xF0, 0x90, 0xF0, 0x90, 0xF0]
  | 0x9 => [0xF0, 0x90, 0xF0, 0x10, 0xF0]
  | 0xA => [0xF0, 0x90, 0xF0, 0x90, 0x90]
  | 0xB => [0xE0, 0x90, 0xE0, 0x90, 0xE0]
  | 0xC => [0xF0, 0x80, 0x80, 0x80, 0xF0]
  | 0xD => [0xE0, 0x90, 0x90, 0x90, 0xE0]
  | 0xE => [0xF0, 0x80, 0xF0, 0x80, 0xF0]
  | 0xF => [0xF0, 0x80, 0xF0, 0x80, 0x80]
  | _ => []

/-- The byte a cell holds after reset: the font at 0x000 to 0x04F, glyph d at 5 × d, and 0x00 elsewhere (R44, R61, R292).
This is what an address that `Memory` does not list reads as. -/
def resetByte (addr : Nat) : Byte := (fontGlyph (addr / 5)).getD (addr % 5) 0

/-! ### Memory (R62, R63, R67) -/

/-- The byte of a cell: the listed one, else the reset contents. -/
def Memory.get (m : Memory) (addr : Nat) : Byte :=
  match m with
  | [] => resetByte addr
  | (a, b) :: rest => if a = addr then b else Memory.get rest addr

/-- Put a byte in a cell and keep the form canonical: addresses rising, no entry equal to the reset contents. -/
def Memory.set (m : Memory) (addr : Nat) (b : Byte) : Memory :=
  match m with
  | [] => if b = resetByte addr then [] else [(addr, b)]
  | (a, c) :: rest =>
    if addr < a then (if b = resetByte addr then (a, c) :: rest else (addr, b) :: (a, c) :: rest)
    else if addr = a then (if b = resetByte addr then rest else (addr, b) :: rest)
    else (a, c) :: Memory.set rest addr b

/-- Every listed address is at or above `low`, the addresses rise strictly, each is below 4096, and no entry equals the
reset contents. -/
def Memory.wfFrom (low : Nat) (m : Memory) : Bool :=
  match m with
  | [] => true
  | (a, b) :: rest => low ≤ a && a < memSize && b != resetByte a && Memory.wfFrom (a + 1) rest

/-- The canonical form of memory. -/
def Memory.wf (m : Memory) : Bool := Memory.wfFrom 0 m

/-- `MemRead(addr, 1)`: the byte in cell `addr mod 4096` (R62). -/
def State.readByte (s : State) (addr : Nat) : Byte := Memory.get s.mem (addr % memSize)

/-- `MemWrite(addr, 1, b)`: store in cell `addr mod 4096` (R63). -/
def State.writeByte (s : State) (addr : Nat) (b : Byte) : State := { s with mem := Memory.set s.mem (addr % memSize) b }

/-! ### Registers (R21, R26, R28, R32, R33, R34) -/

/-- `V[r]` (R12, R21). -/
def State.readV (s : State) (r : Reg) : Byte := s.v[r.val]

/-- `V[r] <- b` (R12, R21). No register is hardwired. -/
def State.writeV (s : State) (r : Reg) (b : Byte) : State := { s with v := s.v.set r.val b }

/-- An exact sum or product as a value of `I` or `pc`: reduced modulo 4096 (R26, R28). -/
def addressWord (value : Nat) : Word := BitVec.ofNat 16 (value % memSize)

/-- `I <- value` (R26). -/
def State.setI (s : State) (value : Nat) : State := { s with i := addressWord value }

/-- `pc <- target` (R28). -/
def State.setPc (s : State) (target : Nat) : State := { s with pc := addressWord target }

/-- `DT := b` (R32). -/
def State.setDt (s : State) (b : Byte) : State := { s with dt := b }

/-- `ST := b` (R33). -/
def State.setSt (s : State) (b : Byte) : State := { s with st := b }

/-- `wait := w` (R34). -/
def State.setWait (s : State) (w : Option Reg) : State := { s with wait := w }

/-! ### The call stack (R140, R141) -/

/-- `push(a)`; `none` is "fail Overflow", with nothing changed (R140). -/
def State.push (s : State) (a : Word) : Option State :=
  if h : s.sp.val < 16 then some { s with stack := s.stack.set s.sp.val a h, sp := ⟨s.sp.val + 1, by omega⟩ } else none

/-- `pop()`: the entry and the state after; `none` is "fail Underflow", with nothing changed. The popped entry keeps its
bits (R141). -/
def State.pop (s : State) : Option (Word × State) :=
  if h : 0 < s.sp.val then some (s.stack[s.sp.val - 1]'(by omega), { s with sp := ⟨s.sp.val - 1, by omega⟩ }) else none

/-! ### The display port (R210, R211) -/

/-- The cell a coordinate pair names, "with coordinate wraparound" (R211). -/
def Display.cell (d : Display) (x y : Nat) : Nat := (y % d.height) * d.width + x % d.width

/-- Whether a pixel is lit. -/
def Display.pixel (d : Display) (x y : Nat) : Bool := d.lit.contains (d.cell x y)

/-- Change one cell of a strictly rising list of lit cells. -/
def flipCell (k : Nat) (lit : List Nat) : List Nat :=
  match lit with
  | [] => [k]
  | j :: rest => if k < j then k :: j :: rest else if k = j then rest else j :: flipCell k rest

/-- `toggle_pixel(x, y)`: the display after, and whether the pixel was erased, that is "went 1→0" (R210, R211). -/
def Display.toggle (d : Display) (x y : Nat) : Display × Bool :=
  ({ d with lit := flipCell (d.cell x y) d.lit }, d.pixel x y)

/-- `clear()` (R211). -/
def Display.clear (d : Display) : Display := { d with lit := [] }

/-- The lit cells rise strictly from `low` and are cells of the bitmap. -/
def litFrom (low size : Nat) (lit : List Nat) : Bool :=
  match lit with
  | [] => true
  | j :: rest => low ≤ j && j < size && litFrom (j + 1) size rest

/-- A display of at least one cell whose lit cells are listed once each, rising. -/
def Display.wf (d : Display) : Bool := 0 < d.width && 0 < d.height && litFrom 0 (d.width * d.height) d.lit

/-- The core's display calls replace the collaborator's record and nothing else (R212). -/
def State.setDisplay (s : State) (d : Display) : State := { s with display := d }

/-! ### The keyboard and random ports (R220, R230, R249) -/

/-- `keyboard.is_pressed(k)`; false for every k above 15 (R220, R230). -/
def State.isPressed (s : State) (k : Byte) : Bool := if h : k.toNat < 16 then s.keys[k.toNat] else false

/-- `rng.random_byte()`: a free value (R249). -/
def State.randomByte (s : State) : Byte := Config.randomByte s.draws

/-- The draw is used up: the next one is another free value (R243: "exactly one draw per execution"). -/
def State.drawn (s : State) : State := { s with draws := s.draws + 1 }

/-! ### Errors (R260 to R263) and the way out of them (R270, R290) -/

/-- The numeric codes of the error register (R260). -/
def errorNumber (e : Option ErrorCode) : BitVec 3 :=
  match e with
  | none => 0
  | some .invalidProgram => 1
  | some .stackOverflow => 2
  | some .stackUnderflow => 3
  | some .unknownOpcode => 4

/-- `raise E(op)`: TAKING AN ERROR (R262). The word and the address it was fetched from, `(pc - 2) mod 4096`, are
recorded; nothing else changes, the pc staying past the instruction (R122). There is no handler to go to (R269). -/
def State.raise (s : State) (e : ErrorCode) (op : Word) : State :=
  { s with fault := some e, faultOp := op, faultPc := BitVec.ofNat 12 ((s.pc.toNat + memSize - 2) % memSize) }

/-- Halted (R263). -/
def State.halted (s : State) : Bool := s.fault.isSome

/-- WaitingForKey (R224). -/
def State.waiting (s : State) : Bool := s.wait.isSome

/-- Neither Halted nor WaitingForKey: a step executes an instruction (R120). -/
def State.running (s : State) : Bool := !s.halted && !s.waiting

/-- The command `reset` (R290): THE ONLY RETURN FROM AN ERROR (R270). Every piece of core state takes its value of R44;
the collaborators are not reached (R293), so the display, the keys, the draws made so far and the commands still pending
stay (log entry 12). -/
def State.resetCore (s : State) : State :=
  { State.reset with display := s.display, keys := s.keys, draws := s.draws, pending := s.pending }

/-! ### Fetch (R64, R121, R122) -/

/-- The instruction word at the pc: high byte at `pc`, low byte at `pc + 1`, each reduced modulo 4096 (R64, R67, R121). -/
def State.fetchWord (s : State) : Word := wordOfBytes (s.readByte s.pc.toNat) (s.readByte (s.pc.toNat + 1))

/-- The pc advance of the fetch, "unconditionally" and before the handler runs (R122). From now on `load_program` is
outside boot (R294). -/
def State.advance (s : State) : State := { s with pc := addressWord (s.pc.toNat + 2), loadable := false }

/-- Store bytes at rising addresses from `addr` (the loader's loop, R296). -/
def State.writeBytes (s : State) (addr : Nat) (bytes : List Byte) : State :=
  match bytes with
  | [] => s
  | b :: rest => State.writeBytes (s.writeByte addr b) (addr + 1) rest

end Sys2Proof.Machine
end

