-- ==== Sys2Proof/Machine/Flags.lean ====
section
/-! DEFINITION. The values the flag-writing instructions put in VF (R23): five of the ALU family and the draw. -/

namespace Sys2Proof.Machine

/-- A flag that is 1 where the condition holds and 0 where not. -/
def flagByte (c : Bool) : Byte := if c then 1 else 0

/-- `8xy4`: the sum exceeds 255 (R176). -/
def carryFlag (a b : Byte) : Byte := flagByte (255 < a.toNat + b.toNat)

/-- `8xy5`: "VF=1 if Vx>Vy else 0", strictly (R177). -/
def subFlag (a b : Byte) : Byte := flagByte (b.toNat < a.toNat)

/-- `8xy7`: "VF=1 if Vy>Vx", strictly; else 0 (R179). -/
def subnFlag (a b : Byte) : Byte := flagByte (a.toNat < b.toNat)

/-- `8xy6`: bit 0 of Vx before the shift (R178). -/
def shrFlag (a _b : Byte) : Byte := a &&& 0x01

/-- `8xyE`: Vx and 0x80, "unshifted value": 0x00 or 0x80, not 0 or 1 (R180). -/
def shlFlag (a _b : Byte) : Byte := a &&& 0x80

/-- `Dxyn`: whether any toggle of the draw erased a pixel (R217). -/
def eraseFlag (erased : Bool) : Byte := flagByte erased

end Sys2Proof.Machine
end

