-- ==== Sys2Proof/Machine/Operands.lean ====
section
/-! DEFINITION. How instructions reach their operands: the one addressing mode, the skip, and the two register-file
updates of the flag-writing ALU instructions. -/

namespace Sys2Proof.Machine

/-- The one addressing mode: `EA = (I + k) mod 4096` (R196). -/
def State.ea (s : State) (k : Nat) : Nat := (s.i.toNat + k) % memSize

/-- The register with a given number; the loops of `Fx55` and `Fx65` count 0 to x. -/
def regAt (k : Nat) : Reg := Fin.ofNat 16 k

/-- `if c then skip`: the pc, already advanced, is advanced by 2 once more (R150). -/
def State.skipIf (s : State) (c : Bool) : State := if c then s.setPc (s.pc.toNat + 2) else s

/-- `V[x] <- f(V[x], V[y])`, with no flag (R172 to R175). -/
def State.aluPlain (s : State) (x y : Reg) (f : Byte → Byte → Byte) : State := s.writeV x (f (s.readV x) (s.readV y))

/-- The two sequential register-file updates of R171: VF first, then Vx from operands read again. -/
def State.aluFlag (s : State) (x y : Reg) (flag f : Byte → Byte → Byte) : State :=
  State.aluPlain (s.writeV vf (flag (s.readV x) (s.readV y))) x y f

end Sys2Proof.Machine
end

