-- ==== Sys2Proof/Machine/Alu.lean ====
section
/-! DEFINITION. The ALU family 8xyN (44_alu.md). -/

namespace Sys2Proof.Machine

/-- `8xy0` (R172). -/
def execLdReg (x y : Reg) (s : State) : Result := .next (s.aluPlain x y fun _ b => b)

/-- `8xy1` (R173). -/
def execOrReg (x y : Reg) (s : State) : Result := .next (s.aluPlain x y fun a b => a ||| b)

/-- `8xy2` (R174). -/
def execAndReg (x y : Reg) (s : State) : Result := .next (s.aluPlain x y fun a b => a &&& b)

/-- `8xy3` (R175). -/
def execXorReg (x y : Reg) (s : State) : Result := .next (s.aluPlain x y fun a b => a ^^^ b)

/-- `8xy4` (R176). -/
def execAddReg (x y : Reg) (s : State) : Result := .next (s.aluFlag x y carryFlag fun a b => a + b)

/-- `8xy5` (R177). -/
def execSubReg (x y : Reg) (s : State) : Result := .next (s.aluFlag x y subFlag fun a b => a - b)

/-- `8xy6` (R178): a logical shift of Vx; Vy is not read. -/
def execShr (x y : Reg) (s : State) : Result := .next (s.aluFlag x y shrFlag fun a _ => a >>> 1)

/-- `8xy7` (R179). -/
def execSubnReg (x y : Reg) (s : State) : Result := .next (s.aluFlag x y subnFlag fun a b => b - a)

/-- `8xyE` (R180); Vy is not read. -/
def execShl (x y : Reg) (s : State) : Result := .next (s.aluFlag x y shlFlag fun a _ => a <<< 1)

end Sys2Proof.Machine
end

