-- ==== Sys2Proof/Machine/Draw.lean ====
section
/-! DEFINITION. The display instructions (46_display.md). -/

namespace Sys2Proof.Machine

/-- The first `cols` columns of one sprite row: column c is bit 7 - c (R215); each set bit asks for one toggle at the exact
sum of the coordinates (R216). The pair is the display and whether a toggle so far erased a pixel. -/
def drawColumns (row : Byte) (vx y cols : Nat) (acc : Display × Bool) : Display × Bool :=
  match cols with
  | 0 => acc
  | c + 1 =>
    let before := drawColumns row vx y c acc
    if row.getLsbD (7 - c) then
      let after := before.1.toggle (vx + c) y
      (after.1, before.2 || after.2)
    else before

/-- The first `rows` rows of the sprite at I, top row first (R214, R215). -/
def State.drawRows (s : State) (vx vy rows : Nat) : Display × Bool :=
  match rows with
  | 0 => (s.display, false)
  | r + 1 => drawColumns (s.readByte (s.ea r)) vx (vy + r) 8 (s.drawRows vx vy r)

/-- `00E0` (R213). -/
def execCls (s : State) : Result := .next (s.setDisplay s.display.clear)

/-- `Dxyn` (R214): Vx and Vy are read once, before VF is written (R216); VF is written once, after the last toggle (R217). -/
def execDrw (x y : Reg) (n : Fin 16) (s : State) : Result :=
  let drawn := s.drawRows (s.readV x).toNat (s.readV y).toNat n.val
  .next ((s.setDisplay drawn.1).writeV vf (eraseFlag drawn.2))

end Sys2Proof.Machine
end

