-- ==== Sys2Proof/Machine/Flow.lean ====
section
/-! DEFINITION. Jumps, call and return (41_flow.md). In every meaning `pc` already holds the address of the instruction
plus 2 (R13, R122). -/

namespace Sys2Proof.Machine

/-- `00EE` (R144): pop into the pc, or StackUnderflow. -/
def execRet (s : State) : Result :=
  match s.pop with
  | none => .next (s.raise .stackUnderflow (encode .ret))
  | some (target, s') => .next (s'.setPc target.toNat)

/-- `1nnn` (R142). -/
def execJp (nnn : Word) (s : State) : Result := .next (s.setPc nnn.toNat)

/-- `2nnn` (R143): push the advanced pc and jump, or StackOverflow with nothing pushed and no jump. -/
def execCall (nnn : Word) (s : State) : Result :=
  match s.push s.pc with
  | none => .next (s.raise .stackOverflow (encode (.call nnn)))
  | some s' => .next (s'.setPc nnn.toNat)

/-- `Bnnn` (R145): the register is always V0. -/
def execJpV0 (nnn : Word) (s : State) : Result := .next (s.setPc (nnn.toNat + (s.readV 0).toNat))

end Sys2Proof.Machine
end

