-- ==== Sys2Proof/Machine/Immediate.lean ====
section
/-! DEFINITION. Load immediate and add immediate (43_load_add_immediate.md). -/

namespace Sys2Proof.Machine

/-- `6xkk` (R160). -/
def execLdImm (x : Reg) (kk : Byte) (s : State) : Result := .next (s.writeV x kk)

/-- `7xkk` (R161): wraps modulo 256, VF is no flag here. -/
def execAddImm (x : Reg) (kk : Byte) (s : State) : Result := .next (s.writeV x (s.readV x + kk))

end Sys2Proof.Machine
end

