-- ==== Sys2Proof/Machine/Index.lean ====
section
/-! DEFINITION. The index register and the memory transfers (45_index_and_memory.md). None of the transfers changes I
(R197). -/

namespace Sys2Proof.Machine

/-- The decimal digits `Fx33` stores: "0, 1 or 2", then "0 to 9", then "0 to 9" (R193). -/
def bcdHundreds (b : Byte) : Byte := BitVec.ofNat 8 (b.toNat / 100)
def bcdTens (b : Byte) : Byte := BitVec.ofNat 8 (b.toNat / 10 % 10)
def bcdOnes (b : Byte) : Byte := BitVec.ofNat 8 (b.toNat % 10)

/-- `MemWrite(I + k, 1, b)` (R196). -/
def State.storeAt (s : State) (k : Nat) (b : Byte) : State := s.writeByte (s.ea k) b

/-- The first `count` stores of `Fx55`, in ascending order (R79, R194). -/
def State.storeRegs (s : State) (count : Nat) : State :=
  match count with
  | 0 => s
  | k + 1 => (s.storeRegs k).storeAt k (s.readV (regAt k))

/-- The first `count` loads of `Fx65`, in ascending order (R79, R195). -/
def State.loadRegs (s : State) (count : Nat) : State :=
  match count with
  | 0 => s
  | k + 1 => (s.loadRegs k).writeV (regAt k) (s.readByte (s.ea k))

/-- `Annn` (R190). -/
def execLdI (nnn : Word) (s : State) : Result := .next (s.setI nnn.toNat)

/-- `Fx1E` (R191): VF is not written. -/
def execAddI (x : Reg) (s : State) : Result := .next (s.setI (s.i.toNat + (s.readV x).toNat))

/-- `Fx29` (R192): the whole 8-bit Vx is multiplied. -/
def execLdF (x : Reg) (s : State) : Result := .next (s.setI ((s.readV x).toNat * 5))

/-- `Fx33` (R193): three stores, ascending (R79); the digits are of the one value read at the start. -/
def execLdB (x : Reg) (s : State) : Result :=
  .next (((s.storeAt 0 (bcdHundreds (s.readV x))).storeAt 1 (bcdTens (s.readV x))).storeAt 2 (bcdOnes (s.readV x)))

/-- `Fx55` (R194): "store/load ranges are inclusive of x". -/
def execStRegs (x : Reg) (s : State) : Result := .next (s.storeRegs (x.val + 1))

/-- `Fx65` (R195). -/
def execLdRegs (x : Reg) (s : State) : Result := .next (s.loadRegs (x.val + 1))

end Sys2Proof.Machine
end

