-- ==== Sys2Proof/Machine/Keyboard.lean ====
section
/-! DEFINITION. The key skips, the wait for a key and the command that ends it (47_keyboard_and_wait.md). -/

namespace Sys2Proof.Machine

/-- `Ex9E` (R222). -/
def execSkp (x : Reg) (s : State) : Result := .next (s.skipIf (s.isPressed (s.readV x)))

/-- `ExA1` (R223). -/
def execSknp (x : Reg) (s : State) : Result := .next (s.skipIf (!s.isPressed (s.readV x)))

/-- `Fx0A` (R225): completes at once; Vx is written later, by `keyDown`. -/
def execLdVxK (x : Reg) (s : State) : Result := .next (s.setWait (some x))

/-- The command `key_down(k)` (R227): resolves a wait, and is ignored when Running or Halted. -/
def State.keyDown (s : State) (k : Fin 16) : State :=
  if s.halted then s
  else match s.wait with
    | none => s
    | some r => (s.writeV r (BitVec.ofNat 8 k.val)).setWait none

/-- The key states change (R41). -/
def State.setKeys (s : State) (pressed : Vector Bool 16) : State := { s with keys := pressed }

end Sys2Proof.Machine
end

