-- ==== Sys2Proof/Machine/Timer.lean ====
section
/-! DEFINITION. The timer and random instructions and the command `tick` (48_timers_and_random.md). -/

namespace Sys2Proof.Machine

/-- `Fx07` (R240). -/
def execLdVxDt (x : Reg) (s : State) : Result := .next (s.writeV x s.dt)

/-- `Fx15` (R241). -/
def execLdDtVx (x : Reg) (s : State) : Result := .next (s.setDt (s.readV x))

/-- `Fx18` (R242): the tone signal is not touched. -/
def execLdStVx (x : Reg) (s : State) : Result := .next (s.setSt (s.readV x))

/-- `Cxkk` (R243). -/
def execRnd (x : Reg) (kk : Byte) (s : State) : Result := .next (s.drawn.writeV x (s.randomByte &&& kk))

/-- A timer decremented by 1 if above 0 (R245). -/
def countDown (t : Byte) : Byte := if 0 < t.toNat then t - 1 else t

/-- The check point: the signal for a value of ST after its decrement (R247). -/
def toneCheck (st : Byte) : SpeakerSignal := if 0 < st.toNat then .toneOn Config.toneFreq else .toneOff

/-- The value of the `tone` latch for a signal: "`tone` holds the last value sent" (R247). -/
def toneLatch (signal : SpeakerSignal) : Bool :=
  match signal with
  | .toneOn _ => true
  | .toneOff => false

/-- The command `tick` (R245): nothing when Halted (R250), whether Running or WaitingForKey otherwise (R246). -/
def State.tick (s : State) : State :=
  if s.halted then s
  else { s with dt := countDown s.dt, st := countDown s.st, tone := toneLatch (toneCheck (countDown s.st)) }

/-- What `tick` sends to the speaker: a signal at every tick that is not Halted (R245, R247). -/
def State.tickSignal (s : State) : Option SpeakerSignal :=
  if s.halted then none else some (toneCheck (countDown s.st))

end Sys2Proof.Machine
end

