-- ==== Sys2Proof/Machine/Cycle.lean ====
section
/-! DEFINITION. The command `step` (one fetch, decode, execute), the loader, the dispatch of the environment's
commands, the batch, the frame and the boot (40_cycle_and_dispatch.md, 70_reset_and_hazards.md). -/

namespace Sys2Proof.Machine

/-- Dispatch of a fetched word at a state whose pc is already advanced: the one instruction it is, or
`raise UnknownOpcode(op)` (R98, R123). -/
def dispatchWord (op : Word) (s : State) : Result :=
  match decodeWord op with
  | .instr i => exec i s
  | .rejected _ => .next (s.raise .unknownOpcode op)

/-- The command `step` (R120): nothing when Halted (R128) or WaitingForKey (R127), else fetch, advance, dispatch. -/
def stepCommand (s : State) : Result :=
  if s.halted then .next s
  else if s.waiting then .next s
  else dispatchWord s.fetchWord s.advance

/-- PROGRAM_BASE (R6). -/
def programBase : Nat := 0x200

/-- PROGRAM_MAX (R6, R297). -/
def programMax : Nat := 3583

/-- The command `load_program` (R296): a bad length is rejected with memory untouched (R278). After the first step or a
load it is refused (R294; log entry 4). -/
def loadProgram (bytes : List Byte) (s : State) : Result :=
  if !s.loadable then .refused .loadOutsideBoot
  else if bytes.length < 1 ∨ programMax < bytes.length then
    .next { s with fault := some .invalidProgram, loadable := false }
  else .next { s.writeBytes programBase bytes with loadable := false }

/-- One command of the environment (R8, R267). -/
def issue (c : Command) (s : State) : Result :=
  match c with
  | .reset => .next s.resetCore
  | .loadProgram bytes => loadProgram bytes s
  | .step => stepCommand s
  | .tick => .next s.tick
  | .keyDown k => .next (s.keyDown k)
  | .setKeys pressed => .next (s.setKeys pressed)

/-- One move of the machine: the oldest pending command, or `step` where none is pending (log entry 2). -/
def advanceMachine (s : State) : Result :=
  match s.pending with
  | [] => stepCommand s
  | c :: rest => issue c { s with pending := rest }

/-- `n` steps and then the tick; a fault ends the batch at once, with no further step and no tick (R125, R129). -/
def batchSteps (n : Nat) (s : State) : Result :=
  if s.halted then .next s
  else match n with
    | 0 => .next s.tick
    | k + 1 =>
      match stepCommand s with
      | .next s' => batchSteps k s'
      | .fault f => .fault f
      | .refused r => .refused r

/-- `run_batch(N)` (R125); N = 0 is refused (R7). -/
def runBatch (n : Nat) (s : State) : Result := if n = 0 then .refused .zeroSpeed else batchSteps n s

/-- What the environment does between two batches (R126): a key-down event, or a change of the key states. -/
abbrev KeyEvent := Fin 16 ⊕ Vector Bool 16

/-- One key event (R227, R41). -/
def State.keyEvent (s : State) (e : KeyEvent) : State :=
  match e with
  | .inl k => s.keyDown k
  | .inr pressed => s.setKeys pressed

/-- One frame (R126): zero or more key events, in the order delivered (R268), and then a batch. The flush that ends a frame
has no effect on the core (R125). -/
def runFrame (events : List KeyEvent) (n : Nat) (s : State) : Result := runBatch n (events.foldl State.keyEvent s)

/-- The frames of a run, each with its key events, at speed `n`; a frame that gives no next state ends the run (R126). -/
def runFrames (n : Nat) (frames : List (List KeyEvent)) (s : State) : Result :=
  match frames with
  | [] => .next s
  | events :: rest =>
    match runFrame events n s with
    | .next t => runFrames n rest t
    | .fault f => .fault f
    | .refused r => .refused r

/-- The boot sequence (R294): `reset`, then `load_program` once. -/
def boot (bytes : List Byte) (s : State) : Result := loadProgram bytes s.resetCore

/-- The machine with the word `op` where the next instruction is fetched, Running and with no other command before the
next step: the two bytes of `op`, high byte first, at the pc (R64). -/
def State.placeWord (s : State) (op : Word) : State :=
  { s.writeBytes s.pc.toNat (bytesOfWord op) with wait := none, fault := none, pending := [] }

end Sys2Proof.Machine
end

