-- ==== Sys2Proof/Machine/Step.lean ====
section
/-! DEFINITION. The step of the machine, and how the host places an instruction under the next fetch. -/

namespace Sys2Proof.Machine

/-- One move of the machine (R8, R120). -/
def step (s : State) : Host.Outcome State Fault Refusal := advanceMachine s

/-- `s` with the opcode table's word `w` where `step` fetches next: its two bytes at the pc, high byte first, the machine
Running and no other command pending (log entries 3 and 14). -/
def State.withFetchWord (s : State) (nbits w : Nat) : State := s.placeWord (BitVec.ofNat 16 (w % 2 ^ nbits))

end Sys2Proof.Machine
end

