-- ==== Sys2Proof/Safety.lean ====
section
/-! DEFINITION. What counts as a sound state and as a safe run, in the terms the statements use. -/

namespace Sys2Proof.Machine

/-- The invariant of the machine: memory is in its canonical form; I, the pc and every stack entry are below 4096, as every
write reduces them (R26, R28, R30); the display lists each lit cell once and inside the bitmap; the machine is not both
Halted and WaitingForKey (R224, R263); and before the first step it is neither waiting nor halted (R291, R294). -/
structure State.Inv (s : State) : Prop where
  mem_wf : Memory.wf s.mem = true
  i_lt : s.i.toNat < memSize
  pc_lt : s.pc.toNat < memSize
  stack_lt : ∀ (k : Nat) (h : k < 16), (s.stack[k]'h).toNat < memSize
  display_wf : s.display.wf = true
  not_both : s.wait = none ∨ s.fault = none
  boot : s.loadable = true → s.wait = none ∧ s.fault = none

/-- A state the emulation can go on from: no error has been detected (R263: "A Halted state is never a successful end"). -/
abbrev State.Safe (s : State) : Prop := s.fault = none

/-- A run of `k` moves of the machine ends in a state with no error. -/
def SafeRun (k : Nat) (s : State) : Prop :=
  match k with
  | 0 => s.Safe
  | n + 1 => s.Safe ∧ ∃ t, step s = .next t ∧ SafeRun n t

end Sys2Proof.Machine
end

