-- ==== Sys2Proof/Certificates/Slice0/Obligations.lean ====
section
/-! DEFINITION. The statements for the provers. Each formalises what its docstring cites; OBLIGATIONS.json lists them. -/

open Sys2Proof Sys2Proof.Machine

namespace Sys2Proof.Statements

/-! ### Frames: what an instruction leaves unchanged -/

/-- Every general register outside `dst` is as before. -/
def RegsKept (dst : List Reg) (s t : State) : Prop := ∀ r, r ∉ dst → t.readV r = s.readV r

/-- Every byte of memory reads as before. -/
def MemoryKept (s t : State) : Prop := ∀ a, t.readByte a = s.readByte a

/-- Only registers of `dst` change: no byte of memory, and no other field of the state (the pc stays where the fetch put it). -/
def RegFrame (dst : List Reg) (s t : State) : Prop := RegsKept dst s t ∧ MemoryKept s t ∧ t = { s with v := t.v }

/-- Only the pc changes. -/
def PcFrame (s t : State) : Prop := RegsKept [] s t ∧ MemoryKept s t ∧ t = { s with pc := t.pc }

/-- Only I changes. -/
def IndexFrame (s t : State) : Prop := RegsKept [] s t ∧ MemoryKept s t ∧ t = { s with i := t.i }

/-- Only the cells of `stored` change: every byte elsewhere reads as before, and every register and every other field is as
before. -/
def StoreFrame (stored : List Nat) (s t : State) : Prop :=
  RegsKept [] s t ∧ (∀ a, a % 4096 ∉ stored → t.readByte a = s.readByte a) ∧ t = { s with mem := t.mem }

/-- The number `w` is the word of the instruction `i`. -/
def WordOf (w : Nat) (i : Instr) : Prop := decodeWord (BitVec.ofNat 16 w) = .instr i

/-- Error `e` is taken for the word `op`: fault, fault_op and fault_pc are written, fault_pc being `(pc - 2) mod 4096`,
and nothing else changes (R262). -/
def ErrorTaken (e : ErrorCode) (op : Word) (s t : State) : Prop :=
  t = { s with fault := some e, faultOp := op, faultPc := t.faultPc } ∧
  (t.faultPc.toNat : Int) = ((s.pc.toNat : Int) - 2) % 4096 ∧ RegsKept [] s t ∧ MemoryKept s t

/-- The two register-file updates of an ALU instruction that writes a flag: VF := flag, and then Vx := f of the registers
as they are after the first update (R171). -/
def FlagThenResult (x y : Reg) (flag : Byte) (f : Byte → Byte → Byte) (s t : State) : Prop :=
  let now (r : Reg) : Byte := if r = 15 then flag else s.readV r
  t.readV x = f (now x) (now y) ∧ (x ≠ 15 → t.readV 15 = flag) ∧ RegFrame [15, x] s t

/-! ### The opcode map (R96) and the font (R292), written out -/

/-- A row of the opcode map: `match`, `mask` and the mnemonic of spec/opcode_table.json. -/
structure OpcodeRow where
  pattern : Word
  mask : Word
  mnemonic : String
  deriving DecidableEq, Repr

/-- The 34 rows of R96. -/
def opcodeMap : List OpcodeRow :=
  [⟨0x00E0, 0xFFFF, "CLS"⟩, ⟨0x00EE, 0xFFFF, "RET"⟩, ⟨0x1000, 0xF000, "JP_nnn"⟩, ⟨0x2000, 0xF000, "CALL_nnn"⟩,
   ⟨0x3000, 0xF000, "SE_Vx__kk"⟩, ⟨0x4000, 0xF000, "SNE_Vx__kk"⟩, ⟨0x5000, 0xF00F, "SE_Vx__Vy"⟩,
   ⟨0x6000, 0xF000, "LD_Vx__kk"⟩, ⟨0x7000, 0xF000, "ADD_Vx__kk"⟩, ⟨0x8000, 0xF00F, "LD_Vx__Vy"⟩,
   ⟨0x8001, 0xF00F, "OR_Vx__Vy"⟩, ⟨0x8002, 0xF00F, "AND_Vx__Vy"⟩, ⟨0x8003, 0xF00F, "XOR_Vx__Vy"⟩,
   ⟨0x8004, 0xF00F, "ADD_Vx__Vy"⟩, ⟨0x8005, 0xF00F, "SUB_Vx__Vy"⟩, ⟨0x8006, 0xF00F, "SHR_Vx"⟩,
   ⟨0x8007, 0xF00F, "SUBN_Vx__Vy"⟩] ++
  [⟨0x800E, 0xF00F, "SHL_Vx"⟩, ⟨0x9000, 0xF00F, "SNE_Vx__Vy"⟩, ⟨0xA000, 0xF000, "LD_I__nnn"⟩,
   ⟨0xB000, 0xF000, "JP_V0__nnn"⟩, ⟨0xC000, 0xF000, "RND_Vx__kk"⟩, ⟨0xD000, 0xF000, "DRW_Vx__Vy__n"⟩,
   ⟨0xE09E, 0xF0FF, "SKP_Vx"⟩, ⟨0xE0A1, 0xF0FF, "SKNP_Vx"⟩, ⟨0xF007, 0xF0FF, "LD_Vx__DT"⟩,
   ⟨0xF00A, 0xF0FF, "LD_Vx__K"⟩, ⟨0xF015, 0xF0FF, "LD_DT__Vx"⟩, ⟨0xF018, 0xF0FF, "LD_ST__Vx"⟩,
   ⟨0xF01E, 0xF0FF, "ADD_I__Vx"⟩, ⟨0xF029, 0xF0FF, "LD_F__Vx"⟩, ⟨0xF033, 0xF0FF, "LD_B__Vx"⟩,
   ⟨0xF055, 0xF0FF, "LD__I___Vx"⟩, ⟨0xF065, 0xF0FF, "LD_Vx___I"⟩]

/-- The mnemonic of an instruction's row. -/
def mnemonicOf (i : Instr) : String :=
  match i with
  | .cls => "CLS"
  | .ret => "RET"
  | .jp _ => "JP_nnn"
  | .call _ => "CALL_nnn"
  | .seImm _ _ => "SE_Vx__kk"
  | .sneImm _ _ => "SNE_Vx__kk"
  | .seReg _ _ => "SE_Vx__Vy"
  | .ldImm _ _ => "LD_Vx__kk"
  | .addImm _ _ => "ADD_Vx__kk"
  | .ldReg _ _ => "LD_Vx__Vy"
  | .orReg _ _ => "OR_Vx__Vy"
  | .andReg _ _ => "AND_Vx__Vy"
  | .xorReg _ _ => "XOR_Vx__Vy"
  | .addReg _ _ => "ADD_Vx__Vy"
  | .subReg _ _ => "SUB_Vx__Vy"
  | .shr _ _ => "SHR_Vx"
  | .subnReg _ _ => "SUBN_Vx__Vy"
  | .shl _ _ => "SHL_Vx"
  | .sneReg _ _ => "SNE_Vx__Vy"
  | .ldI _ => "LD_I__nnn"
  | .jpV0 _ => "JP_V0__nnn"
  | .rnd _ _ => "RND_Vx__kk"
  | .drw _ _ _ => "DRW_Vx__Vy__n"
  | .skp _ => "SKP_Vx"
  | .sknp _ => "SKNP_Vx"
  | .ldVxDt _ => "LD_Vx__DT"
  | .ldVxK _ => "LD_Vx__K"
  | .ldDtVx _ => "LD_DT__Vx"
  | .ldStVx _ => "LD_ST__Vx"
  | .addI _ => "ADD_I__Vx"
  | .ldF _ => "LD_F__Vx"
  | .ldB _ => "LD_B__Vx"
  | .stRegs _ => "LD__I___Vx"
  | .ldRegs _ => "LD_Vx___I"

/-- The 80 font bytes of R292, as one number, first byte highest: glyphs 0 to 7 and 8 to F. -/
def fontLow : Nat := 0xF0909090F02060202070F010F080F0F010F010F09090F01010F080F010F0F080F090F0F010204040
def fontHigh : Nat := 0xF090F090F0F090F010F0F090F09090E090E090E0F0808080F0E0909090E0F080F080F0F080F08080

/-- The font byte at an address below 0x050 (R292). -/
def fontByte (a : Nat) : Byte :=
  if a < 40 then BitVec.ofNat 8 (fontLow / 256 ^ (39 - a)) else BitVec.ofNat 8 (fontHigh / 256 ^ (79 - a))

/-- The core state after a reset (R44, R290); fault_op and fault_pc are 0 by the model's choice (log entry 1). -/
def CoreReset (t : State) : Prop :=
  (∀ a, a < 0x050 → t.readByte a = fontByte a) ∧ (∀ a, 0x050 ≤ a → a < 4096 → t.readByte a = 0) ∧
  (∀ r, t.readV r = 0) ∧ t.i = 0 ∧ t.pc = 0x200 ∧ t.sp = 0 ∧ (∀ (k : Nat) (h : k < 16), t.stack[k]'h = 0) ∧
  t.dt = 0 ∧ t.st = 0 ∧ t.tone = false ∧ t.wait = none ∧ t.fault = none ∧ t.faultOp = 0 ∧ t.faultPc = 0 ∧
  t.loadable = true

/-! ### Registers read and written (R22), and the pc after a step (R29) -/

/-- The registers V0 to Vx. -/
def upTo (x : Reg) : List Reg := (List.finRange 16).filter (· ≤ x)

/-- The "reads" column of R22. -/
def regsRead (i : Instr) : List Reg :=
  match i with
  | .seImm x _ | .sneImm x _ | .addImm x _ | .shr x _ | .shl x _ | .skp x | .sknp x | .ldDtVx x | .ldStVx x | .addI x
  | .ldF x | .ldB x => [x]
  | .seReg x y | .sneReg x y | .orReg x y | .andReg x y | .xorReg x y | .addReg x y | .subReg x y | .subnReg x y
  | .drw x y _ => [x, y]
  | .ldReg _ y => [y]
  | .jpV0 _ => [0]
  | .stRegs x => upTo x
  | .cls | .ret | .jp _ | .call _ | .ldImm _ _ | .ldI _ | .rnd _ _ | .ldVxDt _ | .ldVxK _ | .ldRegs _ => []

/-- The "writes" column of R22, as far as the instruction itself goes (`Fx0A` writes none: the key-down does). -/
def regsWritten (i : Instr) : List Reg :=
  match i with
  | .ldImm x _ | .addImm x _ | .ldReg x _ | .orReg x _ | .andReg x _ | .xorReg x _ | .rnd x _ | .ldVxDt x => [x]
  | .addReg x _ | .subReg x _ | .subnReg x _ | .shr x _ | .shl x _ => [15, x]
  | .drw _ _ _ => [15]
  | .ldRegs x => upTo x
  | .cls | .ret | .jp _ | .call _ | .seImm _ _ | .sneImm _ _ | .seReg _ _ | .sneReg _ _ | .ldI _ | .jpV0 _ | .skp _
  | .sknp _ | .ldVxK _ | .ldDtVx _ | .ldStVx _ | .addI _ | .ldF _ | .ldB _ | .stRegs _ => []

/-- What the two bytes at the pc decode to. -/
def fetched (s : State) : Decoded := (decode [s.readByte s.pc.toNat, s.readByte (s.pc.toNat + 1)]).1

/-- A + 4 where the condition holds, else A + 2, modulo 4096 (R29, R150). -/
def skipTarget (a : Nat) (c : Bool) : Nat := if c then (a + 4) % 4096 else (a + 2) % 4096

/-- Whether key `k` is down; false above 15 (R220, R230). -/
def keyIsDown (s : State) (k : Byte) : Bool := if h : k.toNat < 16 then s.keys[k.toNat] else false

/-- The table of R29: the pc after an executed step, A being the address fetched from. -/
def pcAfterStep (s : State) : Nat :=
  let a := s.pc.toNat
  match fetched s with
  | .rejected _ => (a + 2) % 4096
  | .instr i =>
    match i with
    | .jp nnn => nnn.toNat
    | .call nnn => if s.sp.val = 16 then (a + 2) % 4096 else nnn.toNat
    | .ret => if h : 0 < s.sp.val then (s.stack[s.sp.val - 1]'(by omega)).toNat % 4096 else (a + 2) % 4096
    | .jpV0 nnn => (nnn.toNat + (s.readV 0).toNat) % 4096
    | .seImm x kk => skipTarget a (s.readV x == kk)
    | .sneImm x kk => skipTarget a (s.readV x != kk)
    | .seReg x y => skipTarget a (s.readV x == s.readV y)
    | .sneReg x y => skipTarget a (s.readV x != s.readV y)
    | .skp x => skipTarget a (keyIsDown s (s.readV x))
    | .sknp x => skipTarget a (!keyIsDown s (s.readV x))
    | _ => (a + 2) % 4096

/-! ### The draw as a list of toggles (R214, R215) -/

/-- Whether the sprite at I has a set bit in a row and a column: bit 7 is column 0 (R215). -/
def spriteBit (s : State) (row col : Nat) : Bool := (s.readByte (s.ea row)).getLsbD (7 - col)

/-- The coordinates a draw toggles, rows ascending and within a row columns ascending (R214, R215). -/
def spriteToggles (s : State) (x y : Reg) (n : Nat) : List (Nat × Nat) :=
  (List.range n).flatMap fun row =>
    ((List.range 8).filter fun col => spriteBit s row col).map fun col =>
      ((s.readV x).toNat + col, (s.readV y).toNat + row)

/-- Toggle the pixels of a list in order, and say whether any was erased (R210, R214). -/
def runToggles (l : List (Nat × Nat)) (d : Display) (erased : Bool) : Display × Bool :=
  match l with
  | [] => (d, erased)
  | p :: rest => runToggles rest (d.toggle p.1 p.2).1 (erased || (d.toggle p.1 p.2).2)

/-- The sprite drawn at (Vx, Vy) covers the pixel (p, q) of a display, with coordinate wraparound (R211, R214). -/
def Covers (s : State) (x y : Reg) (n p q : Nat) : Prop :=
  ∃ row col, row < n ∧ col < 8 ∧ spriteBit s row col = true ∧
    ((s.readV x).toNat + col) % s.display.width = p ∧ ((s.readV y).toNat + row) % s.display.height = q

/-- The pending list a batch of `n` steps stands for (R125). -/
def batchCommands (n : Nat) : List Command := List.replicate n .step ++ [.tick]

/-- The pending list a frame stands for (R126). -/
def frameCommands (events : List KeyEvent) (n : Nat) : List Command :=
  (events.map fun e => match e with | .inl k => .keyDown k | .inr pressed => .setKeys pressed) ++ batchCommands n

end Sys2Proof.Statements

open Sys2Proof.Statements

/-! ### Encoding (30_encoding.md) -/

/-- Every well-formed instruction decodes from its own word, with every operand at every value the encoding admits
(R92, R93, R96). -/
def Obligations.DecodeOfEncode : Prop := ∀ i : Instr, WellFormed i → decodeWord (encode i) = .instr i

/-- A word that decodes is the word of the instruction it decodes to, which is well formed: no word has two meanings and no
bit of a legal word is dropped (R90, R97). -/
def Obligations.EncodeOfDecode : Prop :=
  ∀ (w : Word) (i : Instr), decodeWord w = .instr i → encode i = w ∧ WellFormed i

/-- The decoder is the opcode map of R96: a word selects a row when `w & mask = match` and then decodes to an instruction of
that row; a word that selects none is rejected by name; no two rows overlap. -/
def Obligations.DecoderIsOpcodeMap : Prop :=
  (∀ (w : Word) (row : OpcodeRow), row ∈ opcodeMap → w &&& row.mask = row.pattern →
    ∃ i, decodeWord w = .instr i ∧ mnemonicOf i = row.mnemonic) ∧
  (∀ w : Word, (∀ row ∈ opcodeMap, w &&& row.mask ≠ row.pattern) → decodeWord w = .rejected (.unknownOpcode w)) ∧
  (∀ (w : Word) (row row' : OpcodeRow), row ∈ opcodeMap → row' ∈ opcodeMap → w &&& row.mask = row.pattern →
    w &&& row'.mask = row'.pattern → row = row')

/-- The illegal words are exactly those of the table of R98. -/
def Obligations.IllegalWords : Prop :=
  ∀ w : Word, decodeWord w = .rejected (.unknownOpcode w) ↔
    let family := w.toNat / 4096
    let n := w.toNat % 16
    let kk := w.toNat % 256
    family = 0 ∧ w ≠ 0x00E0#16 ∧ w ≠ 0x00EE#16 ∨
    family = 5 ∧ n ≠ 0 ∨
    family = 8 ∧ n ∈ [0x8, 0x9, 0xA, 0xB, 0xC, 0xD, 0xF] ∨
    family = 9 ∧ n ≠ 0 ∨
    family = 0xE ∧ kk ∉ [0x9E, 0xA1] ∨
    family = 0xF ∧ kk ∉ [0x07, 0x0A, 0x15, 0x18, 0x1E, 0x29, 0x33, 0x55, 0x65]

/-- Words written out from the patterns of R96, at least one per family, decode to the instructions they stand for. -/
def Obligations.DecodedWords : Prop :=
  WordOf 0x00E0 .cls ∧ WordOf 0x00EE .ret ∧ WordOf 0x1ABC (.jp 0xABC) ∧ WordOf 0x2300 (.call 0x300) ∧
  WordOf 0x332A (.seImm 3 0x2A) ∧ WordOf 0x9120 (.sneReg 1 2) ∧ WordOf 0x6A7F (.ldImm 0xA 0x7F) ∧
  WordOf 0x81FE (.shl 1 0xF) ∧ WordOf 0xA2F0 (.ldI 0x2F0) ∧ WordOf 0xD015 (.drw 0 1 5) ∧ WordOf 0xE4A1 (.sknp 4) ∧
  WordOf 0xF50A (.ldVxK 5) ∧ WordOf 0xC20F (.rnd 2 0x0F) ∧ WordOf 0xF265 (.ldRegs 2) ∧
  decodeWord 0x0000#16 = .rejected (.unknownOpcode 0x0000#16)

/-! ### The step (40_cycle_and_dispatch.md) -/

/-- When the two bytes at the pc decode to an instruction, a step of a Running machine is exec of it at the state whose pc is
advanced by 2 modulo 4096; `step` is what the environment issues when nothing is pending, or its oldest command
(R120 to R123; `loadable` and `pending` are the model's own fields, log entries 2 and 4). -/
def Obligations.StepRunsDecodedInstruction : Prop :=
  ∀ (s : State) (i : Instr), s.fault = none → s.wait = none → fetched s = .instr i →
    (s.pending = [] →
      step s = exec i { s with pc := BitVec.ofNat 16 ((s.pc.toNat + 2) % 4096), loadable := false }) ∧
    (∀ rest, s.pending = .step :: rest →
      step s = exec i { s with pc := BitVec.ofNat 16 ((s.pc.toNat + 2) % 4096), loadable := false, pending := rest })

/-- A step does exactly one of three things (R120): nothing when Halted; nothing when WaitingForKey; and when Running it
fetches two bytes, high byte first, advances the pc by 2 modulo 4096 and dispatches: to the instruction the word is, or to
the error UnknownOpcode for a word that is none. -/
def Obligations.StepDoesOneOfThree : Prop :=
  ∀ s : State,
    (s.fault ≠ none → issue .step s = .next s) ∧
    (s.fault = none → s.wait ≠ none → issue .step s = .next s) ∧
    (s.fault = none → s.wait = none →
      let op : Word := BitVec.ofNat 16 ((s.readByte s.pc.toNat).toNat * 256 + (s.readByte (s.pc.toNat + 1)).toNat)
      let s1 : State := { s with pc := BitVec.ofNat 16 ((s.pc.toNat + 2) % 4096), loadable := false }
      (∀ i, decodeWord op = .instr i → issue .step s = exec i s1) ∧
      (∀ e, decodeWord op = .rejected e → ∃ t, issue .step s = .next t ∧ ErrorTaken .unknownOpcode op s1 t))

/-- The word that the host places is the instruction the very next step runs: on any state with canonical memory, and
whatever the pc, even at the top of memory. -/
def Obligations.PlacedWordRuns : Prop :=
  ∀ (s : State) (w : Nat) (i : Instr), Memory.wf s.mem = true → decodeTableWord 16 w = some i →
    step (s.withFetchWord 16 w) =
      exec i { s.withFetchWord 16 w with pc := BitVec.ofNat 16 ((s.pc.toNat + 2) % 4096), loadable := false }

/-- The pc after a step, by the table of R29; a step while waiting or halted leaves it unchanged. -/
def Obligations.PcAfterStep : Prop :=
  ∀ s : State, s.pending = [] →
    ∃ t, step s = .next t ∧
      t.pc.toNat = if s.fault ≠ none ∨ s.wait ≠ none then s.pc.toNat else pcAfterStep s

/-- The machine never stops by a fault, and without a next state only where `load_program` comes outside boot; in particular
every instruction completes (R124, R131; the refusal is that of R294, log entry 4). -/
def Obligations.EveryStepAnswers : Prop :=
  (∀ s : State, (∃ t, step s = .next t) ∨
    (step s = .refused .loadOutsideBoot ∧ s.loadable = false ∧ ∃ bytes rest, s.pending = .loadProgram bytes :: rest)) ∧
  (∀ (i : Instr) (s : State), ∃ t, exec i s = .next t)

/-! ### Invariants -/

/-- The machine after reset meets the invariant. -/
def Obligations.ResetMeetsInvariant : Prop := State.reset.Inv

/-- Every step keeps the invariant: memory stays canonical, I, the pc and the stack entries stay below 4096, the display
stays canonical, and the machine is never both Halted and WaitingForKey. -/
def Obligations.StepKeepsInvariant : Prop := ∀ s t : State, s.Inv → step s = .next t → t.Inv

/-- Two memories in canonical form with the same contents are equal data. -/
def Obligations.CanonicalMemoryIsUnique : Prop :=
  ∀ m m' : Memory, Memory.wf m = true → Memory.wf m' = true →
    (∀ a, a < 4096 → Memory.get m a = Memory.get m' a) → m = m'

/-! ### Whole-machine rules -/

/-- Each instruction writes no general register but those of R22's "writes" column. -/
def Obligations.OnlyListedRegistersWritten : Prop :=
  ∀ (i : Instr) (s t : State), exec i s = .next t → RegsKept (regsWritten i) s t

/-- Each instruction reads no general register but those of R22's "reads" column: changing any other register changes
nothing in what it does, and that register keeps the change unless the instruction writes it. -/
def Obligations.OnlyListedRegistersRead : Prop :=
  ∀ (i : Instr) (s t : State) (r : Reg) (b : Byte), r ∉ regsRead i → exec i s = .next t →
    exec i (s.writeV r b) = .next (if r ∈ regsWritten i then t else t.writeV r b)

/-- Which instruction can change which state beside the registers and the pc: memory, I, the stack, the timers, the wait
registration, the error status and the display each change by the instructions named for them and by no other; the tone and
the key states by none; each `Cxkk` uses one draw and no other instruction any. -/
def Obligations.StateChangedOnlyByItsInstructions : Prop :=
  ∀ (i : Instr) (s t : State), exec i s = .next t →
    (t.mem ≠ s.mem → ∃ x, i = .ldB x ∨ i = .stRegs x) ∧
    (t.i ≠ s.i → (∃ nnn, i = .ldI nnn) ∨ ∃ x, i = .addI x ∨ i = .ldF x) ∧
    (t.stack ≠ s.stack → ∃ nnn, i = .call nnn) ∧
    (t.sp ≠ s.sp → i = .ret ∨ ∃ nnn, i = .call nnn) ∧
    (t.dt ≠ s.dt → ∃ x, i = .ldDtVx x) ∧
    (t.st ≠ s.st → ∃ x, i = .ldStVx x) ∧
    (t.wait ≠ s.wait → ∃ x, i = .ldVxK x) ∧
    (t.display ≠ s.display → i = .cls ∨ ∃ x y n, i = .drw x y n) ∧
    (t.draws ≠ s.draws ↔ ∃ x kk, i = .rnd x kk) ∧
    t.tone = s.tone ∧ t.keys = s.keys ∧ t.loadable = s.loadable ∧ t.pending = s.pending

/-- An instruction raises an error only in the two ways of R261: `00EE` with an empty stack and `2nnn` with a full one. -/
def Obligations.OnlyCallAndReturnRaise : Prop :=
  ∀ (i : Instr) (s t : State), exec i s = .next t → (t.fault, t.faultOp, t.faultPc) ≠ (s.fault, s.faultOp, s.faultPc) →
    (i = .ret ∧ s.sp.val = 0 ∧ t.fault = some .stackUnderflow) ∨
    (∃ nnn, i = .call nnn ∧ s.sp.val = 16 ∧ t.fault = some .stackOverflow)

/-- Halted: step, tick, key_down and run_batch change nothing (R263, the spec's decision D13). -/
def Obligations.HaltedIsFrozen : Prop :=
  ∀ s : State, s.fault ≠ none →
    issue .step s = .next s ∧ issue .tick s = .next s ∧ (∀ k, issue (.keyDown k) s = .next s) ∧
    (∀ n, 1 ≤ n → runBatch n s = .next s)

/-- A wait ends only by a key-down or a reset: no other move of the machine passes it (R224, R232). -/
def Obligations.WaitEndsOnlyByKeyOrReset : Prop :=
  ∀ (s t : State) (r : Reg), s.wait = some r → step s = .next t → t.wait ≠ some r →
    (s.fault = none ∧ ∃ k rest, s.pending = .keyDown k :: rest) ∨ (∃ rest, s.pending = .reset :: rest)

/-! ### Commands of the environment -/

/-- The machine after reset (R44), with the environment the model assumes: a blank 64 × 32 display, no key down, nothing
drawn, nothing pending (log entries 1, 2, 5, 7, 8); the font glyphs of 1 to F are general knowledge (log entry 10). -/
def Obligations.StateAfterReset : Prop :=
  CoreReset State.reset ∧ State.reset.display.width = 64 ∧ State.reset.display.height = 32 ∧
  (∀ x y, State.reset.display.pixel x y = false) ∧ (∀ k, keyIsDown State.reset k = false) ∧ State.reset.pending = []

/-- `reset` in any state, Halted included, gives the core its reset values and keeps nothing of it; the collaborators are not
reached (R290, R293; log entry 12). -/
def Obligations.ResetCommand : Prop :=
  ∀ s : State, ∃ t, issue .reset s = .next t ∧ CoreReset t ∧ t.display = s.display ∧ t.keys = s.keys ∧
    t.draws = s.draws ∧ t.pending = s.pending

/-- `tick` (R245): nothing when Halted; else each timer above 0 goes down by 1, the tone is on exactly where ST is above 0
after that, the speaker is told so, and nothing else changes. -/
def Obligations.TickEffect : Prop :=
  ∀ s : State,
    (s.fault ≠ none → issue .tick s = .next s ∧ s.tickSignal = none) ∧
    (s.fault = none → ∃ t, issue .tick s = .next t ∧
      (0 < s.dt.toNat → t.dt.toNat = s.dt.toNat - 1) ∧ (s.dt.toNat = 0 → t.dt = s.dt) ∧
      (0 < s.st.toNat → t.st.toNat = s.st.toNat - 1) ∧ (s.st.toNat = 0 → t.st = s.st) ∧
      (0 < t.st.toNat → t.tone = true ∧ s.tickSignal = some (.toneOn Config.toneFreq)) ∧
      (t.st.toNat = 0 → t.tone = false ∧ s.tickSignal = some .toneOff) ∧
      RegsKept [] s t ∧ MemoryKept s t ∧ t = { s with dt := t.dt, st := t.st, tone := t.tone })

/-- After N ticks from a value V a timer holds max(0, V − N), and the tone is on exactly where ST is then above 0
(R248). -/
def Obligations.TimersAfterTicks : Prop :=
  ∀ (s : State) (n : Nat), s.fault = none →
    (State.tick^[n] s).dt.toNat = s.dt.toNat - n ∧ (State.tick^[n] s).st.toNat = s.st.toNat - n ∧
    (1 ≤ n → ((State.tick^[n] s).tone = true ↔ n < s.st.toNat))

/-- `key_down(k)` (R227): while waiting and not Halted, Vr := k and the wait ends, and nothing else changes; while Running or
Halted nothing changes. -/
def Obligations.KeyDownEffect : Prop :=
  ∀ (s : State) (k : Fin 16),
    (s.fault ≠ none ∨ s.wait = none → issue (.keyDown k) s = .next s) ∧
    (∀ r, s.fault = none → s.wait = some r → ∃ t, issue (.keyDown k) s = .next t ∧ (t.readV r).toNat = k.val ∧
      t.wait = none ∧ RegsKept [r] s t ∧ MemoryKept s t ∧ t = { s with v := t.v, wait := none })

/-- `load_program` in boot (R296, R278): a length of 1 to 3583 puts byte j at 0x200 + j and changes nothing else; any other
length raises InvalidProgram and leaves memory and everything else as it was. -/
def Obligations.LoadProgramEffect : Prop :=
  ∀ (s : State) (bytes : List Byte), Memory.wf s.mem = true → s.loadable = true →
    (1 ≤ bytes.length ∧ bytes.length ≤ 3583 → ∃ t, issue (.loadProgram bytes) s = .next t ∧
      (∀ (j : Nat) (h : j < bytes.length), t.readByte (0x200 + j) = bytes[j]'h) ∧
      (∀ a, a < 4096 → (a < 0x200 ∨ 0x200 + bytes.length ≤ a) → t.readByte a = s.readByte a) ∧
      RegsKept [] s t ∧ t = { s with mem := t.mem, loadable := false }) ∧
    (bytes.length = 0 ∨ 3583 < bytes.length →
      issue (.loadProgram bytes) s = .next { s with fault := some .invalidProgram, loadable := false })

/-- What a model refuses by the spec's word: `load_program` after a load or a step (R294), and a batch of 0 steps (R7). -/
def Obligations.RefusedCommands : Prop :=
  (∀ (s : State) (bytes : List Byte), s.loadable = false →
    issue (.loadProgram bytes) s = .refused .loadOutsideBoot) ∧
  (∀ s : State, runBatch 0 s = .refused .zeroSpeed)

/-- A batch is its steps and its tick, one move of the machine each: running the pending list of the batch gives what
`run_batch` gives, also where a fault ends the batch early and where the core waits (R125, R127, R129). -/
def Obligations.BatchIsStepsThenTick : Prop :=
  ∀ (s : State) (n : Nat), 1 ≤ n → s.pending = [] →
    Host.Core.run Sys2Proof.core (n + 1) { s with pending := batchCommands n } = runBatch n s

/-- A frame is its key events, its steps and its tick, in that order, one move of the machine each (R126, R268). -/
def Obligations.FrameIsItsCommands : Prop :=
  ∀ (s : State) (events : List KeyEvent) (n : Nat), 1 ≤ n → s.pending = [] →
    Host.Core.run Sys2Proof.core (events.length + (n + 1)) { s with pending := frameCommands events n } = runFrame events n s

/-- The boot sequence from any state (R294): with 1 to 3583 bytes the core has its reset values, byte j of the program stands
at 0x200 + j, every other byte has its reset value, and the first step fetches from 0x200; a further load is refused. -/
def Obligations.BootSequence : Prop :=
  ∀ (s : State) (bytes : List Byte), 1 ≤ bytes.length → bytes.length ≤ 3583 →
    ∃ t, boot bytes s = .next t ∧ t.pc = 0x200 ∧ t.fault = none ∧ t.wait = none ∧ t.sp = 0 ∧ t.i = 0 ∧ (∀ r, t.readV r = 0) ∧
      (∀ (j : Nat) (h : j < bytes.length), t.readByte (0x200 + j) = bytes[j]'h) ∧
      (∀ a, a < 4096 → (a < 0x200 ∨ 0x200 + bytes.length ≤ a) → t.readByte a = State.reset.readByte a) ∧
      ∀ again, issue (.loadProgram again) t = .refused .loadOutsideBoot

/-- While the core waits for a key, a batch is one tick: no instruction executes and the timers keep counting
(R226, the spec's decision D15). -/
def Obligations.BatchWhileWaiting : Prop :=
  ∀ (s : State) (n : Nat), 1 ≤ n → s.fault = none → s.wait ≠ none → runBatch n s = .next s.tick

/-! ### Flow (41_flow.md) -/

/-- `1nnn` (R142): pc := nnn, and nothing else changes. -/
def Obligations.Jump : Prop :=
  ∀ (s : State) (nnn : Word), nnn.toNat < 4096 →
    WordOf (0x1000 + nnn.toNat) (.jp nnn) ∧ ∃ t, exec (.jp nnn) s = .next t ∧ t.pc = nnn ∧ PcFrame s t

/-- `2nnn` (R143): with fewer than 16 entries the advanced pc is pushed and pc := nnn; with 16 StackOverflow is taken with
the stack, sp and the registers unchanged and the pc not at nnn. -/
def Obligations.Call : Prop :=
  ∀ (s : State) (nnn : Word), nnn.toNat < 4096 →
    WordOf (0x2000 + nnn.toNat) (.call nnn) ∧
    (∀ h : s.sp.val < 16, ∃ t, exec (.call nnn) s = .next t ∧ t.pc = nnn ∧ t.sp.val = s.sp.val + 1 ∧
      t.stack[s.sp.val]'h = s.pc ∧ (∀ (k : Nat) (hk : k < 16), k ≠ s.sp.val → t.stack[k]'hk = s.stack[k]'hk) ∧
      RegsKept [] s t ∧ MemoryKept s t ∧ t = { s with pc := t.pc, sp := t.sp, stack := t.stack }) ∧
    (s.sp.val = 16 → ∃ t, exec (.call nnn) s = .next t ∧
      ErrorTaken .stackOverflow (BitVec.ofNat 16 (0x2000 + nnn.toNat)) s t)

/-- `00EE` (R144): the top entry is popped into the pc; with no entry StackUnderflow is taken with nothing popped. -/
def Obligations.Return : Prop :=
  WordOf 0x00EE .ret ∧
  ∀ s : State,
    (∀ h : 0 < s.sp.val, ∃ t, exec .ret s = .next t ∧
      t.pc.toNat = (s.stack[s.sp.val - 1]'(by omega)).toNat % 4096 ∧ t.sp.val = s.sp.val - 1 ∧
      RegsKept [] s t ∧ MemoryKept s t ∧ t = { s with pc := t.pc, sp := t.sp }) ∧
    (s.sp.val = 0 → ∃ t, exec .ret s = .next t ∧ ErrorTaken .stackUnderflow 0x00EE#16 s t)

/-- `Bnnn` (R145): pc := (nnn + V0) mod 4096, and nothing else changes, VF included (the wrap is the spec's decision D2). -/
def Obligations.JumpOffset : Prop :=
  ∀ (s : State) (nnn : Word), nnn.toNat < 4096 →
    WordOf (0xB000 + nnn.toNat) (.jpV0 nnn) ∧
    ∃ t, exec (.jpV0 nnn) s = .next t ∧ t.pc.toNat = (nnn.toNat + (s.readV 0).toNat) % 4096 ∧ PcFrame s t

/-- "`00EE` after `2nnn` restores PC to the instruction after the original call", and sp, at every depth below 16. -/
def Obligations.CallThenReturn : Prop :=
  ∀ (s : State) (nnn : Word), s.sp.val < 16 → s.pc.toNat < 4096 →
    ∃ t u, exec (.call nnn) s = .next t ∧ exec .ret t = .next u ∧ u.pc = s.pc ∧ u.sp = s.sp ∧
      u = { s with stack := u.stack }

/-! ### Skips (42_skip.md, 47_keyboard_and_wait.md) -/

/-- `3xkk` and `4xkk` (R151, R152): the pc, already advanced, goes 2 further modulo 4096 exactly where Vx equals (differs
from) kk, and nothing else changes (the wrap is the spec's decision D2). -/
def Obligations.SkipOnImmediate : Prop :=
  ∀ (s : State) (x : Reg) (kk : Byte),
    WordOf (0x3000 + x.val * 256 + kk.toNat) (.seImm x kk) ∧ WordOf (0x4000 + x.val * 256 + kk.toNat) (.sneImm x kk) ∧
    (∃ t, exec (.seImm x kk) s = .next t ∧
      t.pc.toNat = (if s.readV x = kk then (s.pc.toNat + 2) % 4096 else s.pc.toNat) ∧ PcFrame s t) ∧
    (∃ t, exec (.sneImm x kk) s = .next t ∧
      t.pc.toNat = (if s.readV x ≠ kk then (s.pc.toNat + 2) % 4096 else s.pc.toNat) ∧ PcFrame s t)

/-- `5xy0` and `9xy0` (R153, R154): the same on two registers (the wrap is the spec's decision D2). -/
def Obligations.SkipOnRegisters : Prop :=
  ∀ (s : State) (x y : Reg),
    WordOf (0x5000 + x.val * 256 + y.val * 16) (.seReg x y) ∧ WordOf (0x9000 + x.val * 256 + y.val * 16) (.sneReg x y) ∧
    (∃ t, exec (.seReg x y) s = .next t ∧
      t.pc.toNat = (if s.readV x = s.readV y then (s.pc.toNat + 2) % 4096 else s.pc.toNat) ∧ PcFrame s t) ∧
    (∃ t, exec (.sneReg x y) s = .next t ∧
      t.pc.toNat = (if s.readV x ≠ s.readV y then (s.pc.toNat + 2) % 4096 else s.pc.toNat) ∧ PcFrame s t)

/-- `Ex9E` and `ExA1` (R222, R223): skip where key Vx is down (up); a value above 15 is never down (R230, the spec's decision
D11). Nothing else changes (the wrap is decision D2). -/
def Obligations.SkipOnKey : Prop :=
  ∀ (s : State) (x : Reg),
    WordOf (0xE09E + x.val * 256) (.skp x) ∧ WordOf (0xE0A1 + x.val * 256) (.sknp x) ∧
    (∃ t, exec (.skp x) s = .next t ∧
      t.pc.toNat = (if keyIsDown s (s.readV x) = true then (s.pc.toNat + 2) % 4096 else s.pc.toNat) ∧ PcFrame s t) ∧
    (∃ t, exec (.sknp x) s = .next t ∧
      t.pc.toNat = (if keyIsDown s (s.readV x) = false then (s.pc.toNat + 2) % 4096 else s.pc.toNat) ∧ PcFrame s t)

/-! ### Immediates (43_load_add_immediate.md) -/

/-- `6xkk` (R160): Vx := kk, and nothing else changes. -/
def Obligations.LoadImmediate : Prop :=
  ∀ (s : State) (x : Reg) (kk : Byte),
    WordOf (0x6000 + x.val * 256 + kk.toNat) (.ldImm x kk) ∧
    ∃ t, exec (.ldImm x kk) s = .next t ∧ t.readV x = kk ∧ RegFrame [x] s t

/-- `7xkk` (R161): Vx := (Vx + kk) mod 256, and nothing else changes, VF included (unless it is Vx). -/
def Obligations.AddImmediate : Prop :=
  ∀ (s : State) (x : Reg) (kk : Byte),
    WordOf (0x7000 + x.val * 256 + kk.toNat) (.addImm x kk) ∧
    ∃ t, exec (.addImm x kk) s = .next t ∧ (t.readV x).toNat = ((s.readV x).toNat + kk.toNat) % 256 ∧
      RegFrame [x] s t

/-! ### ALU (44_alu.md) -/

/-- `8xy0` to `8xy3` (R172 to R175): Vx := Vy, Vx or Vy, Vx and Vy, Vx xor Vy; VF is not written unless it is Vx. -/
def Obligations.AluWithoutFlag : Prop :=
  ∀ (s : State) (x y : Reg),
    (WordOf (0x8000 + x.val * 256 + y.val * 16) (.ldReg x y) ∧
      ∃ t, exec (.ldReg x y) s = .next t ∧ t.readV x = s.readV y ∧ RegFrame [x] s t) ∧
    (WordOf (0x8001 + x.val * 256 + y.val * 16) (.orReg x y) ∧
      ∃ t, exec (.orReg x y) s = .next t ∧ t.readV x = s.readV x ||| s.readV y ∧ RegFrame [x] s t) ∧
    (WordOf (0x8002 + x.val * 256 + y.val * 16) (.andReg x y) ∧
      ∃ t, exec (.andReg x y) s = .next t ∧ t.readV x = s.readV x &&& s.readV y ∧ RegFrame [x] s t) ∧
    (WordOf (0x8003 + x.val * 256 + y.val * 16) (.xorReg x y) ∧
      ∃ t, exec (.xorReg x y) s = .next t ∧ t.readV x = s.readV x ^^^ s.readV y ∧ RegFrame [x] s t)

/-- `8xy4` (R176): VF := 1 where the sum exceeds 255 and 0 where not, then Vx := (Vx + Vy) mod 256, the operands read again
after the flag is written (R171, the spec's decision D4, which shows only where x or y is 0xF). -/
def Obligations.AddSetsCarry : Prop :=
  ∀ (s : State) (x y : Reg),
    WordOf (0x8004 + x.val * 256 + y.val * 16) (.addReg x y) ∧
    ∃ t, exec (.addReg x y) s = .next t ∧
      FlagThenResult x y (if 255 < (s.readV x).toNat + (s.readV y).toNat then 1 else 0)
        (fun a b => BitVec.ofNat 8 ((a.toNat + b.toNat) % 256)) s t

/-- `8xy5` (R177): VF := 1 where Vx > Vy strictly and 0 where not, then Vx := (Vx - Vy) mod 256 (order: R171, decision D4). -/
def Obligations.SubSetsGreater : Prop :=
  ∀ (s : State) (x y : Reg),
    WordOf (0x8005 + x.val * 256 + y.val * 16) (.subReg x y) ∧
    ∃ t, exec (.subReg x y) s = .next t ∧
      FlagThenResult x y (if (s.readV y).toNat < (s.readV x).toNat then 1 else 0)
        (fun a b => BitVec.ofInt 8 (((a.toNat : Int) - b.toNat) % 256)) s t

/-- `8xy7` (R179): VF := 1 where Vy > Vx strictly and 0 where not (the 0 is the spec's decision D5), then
Vx := (Vy - Vx) mod 256 (order: R171, decision D4). -/
def Obligations.SubnSetsGreater : Prop :=
  ∀ (s : State) (x y : Reg),
    WordOf (0x8007 + x.val * 256 + y.val * 16) (.subnReg x y) ∧
    ∃ t, exec (.subnReg x y) s = .next t ∧
      FlagThenResult x y (if (s.readV x).toNat < (s.readV y).toNat then 1 else 0)
        (fun a b => BitVec.ofInt 8 (((b.toNat : Int) - a.toNat) % 256)) s t

/-- `8xy6` (R178): VF := bit 0 of Vx, then Vx := Vx div 2; Vy is not read, whatever y is (order: R171, decision D4). -/
def Obligations.ShiftRight : Prop :=
  ∀ (s : State) (x y : Reg),
    WordOf (0x8006 + x.val * 256 + y.val * 16) (.shr x y) ∧
    ∃ t, exec (.shr x y) s = .next t ∧
      FlagThenResult x y (BitVec.ofNat 8 ((s.readV x).toNat % 2)) (fun a _ => BitVec.ofNat 8 (a.toNat / 2)) s t

/-- `8xyE` (R180): VF := 0x80 where bit 7 of Vx is set and 0x00 where not, then Vx := 2 Vx mod 256; Vy is not read
(order: R171, decision D4). -/
def Obligations.ShiftLeft : Prop :=
  ∀ (s : State) (x y : Reg),
    WordOf (0x800E + x.val * 256 + y.val * 16) (.shl x y) ∧
    ∃ t, exec (.shl x y) s = .next t ∧
      FlagThenResult x y (if 128 ≤ (s.readV x).toNat then 0x80 else 0x00)
        (fun a _ => BitVec.ofNat 8 (a.toNat * 2 % 256)) s t

/-- The table of R182: the flag-writing ALU instructions where VF is an operand (the spec's decision D4). `f` is VF before,
`a` another register r before; `g` the flag written first. -/
def Obligations.FlagRegisterAsOperand : Prop :=
  ∀ (s : State) (r : Reg), r ≠ 15 →
    let f := (s.readV 15).toNat
    let a := (s.readV r).toNat
    let bit (c : Prop) [Decidable c] : Nat := if c then 1 else 0
    let vfAfter (i : Instr) (v : Nat) : Prop := ∃ t, exec i s = .next t ∧ (t.readV 15).toNat = v
    let bothAfter (i : Instr) (flag v : Nat) : Prop :=
      ∃ t, exec i s = .next t ∧ (t.readV 15).toNat = flag ∧ (t.readV r).toNat = v
    vfAfter (.addReg 15 r) ((bit (255 < f + a) + a) % 256) ∧
    bothAfter (.addReg r 15) (bit (255 < a + f)) ((a + bit (255 < a + f)) % 256) ∧
    vfAfter (.addReg 15 15) (2 * bit (255 < 2 * f)) ∧
    vfAfter (.subReg 15 r) ((bit (a < f) + 256 - a) % 256) ∧
    bothAfter (.subReg r 15) (bit (f < a)) ((a + 256 - bit (f < a)) % 256) ∧
    vfAfter (.subReg 15 15) 0 ∧
    vfAfter (.shr 15 r) 0 ∧ bothAfter (.shr r 15) (a % 2) (a / 2) ∧ vfAfter (.shr 15 15) 0 ∧
    vfAfter (.subnReg 15 r) ((a + 256 - bit (f < a)) % 256) ∧
    bothAfter (.subnReg r 15) (bit (a < f)) ((bit (a < f) + 256 - a) % 256) ∧
    vfAfter (.subnReg 15 15) 0 ∧
    vfAfter (.shl 15 r) 0 ∧ bothAfter (.shl r 15) (if 128 ≤ a then 128 else 0) (2 * a % 256) ∧ vfAfter (.shl 15 15) 0

/-! ### Index register and memory (45_index_and_memory.md) -/

/-- `Annn` (R190): I := nnn, and nothing else changes. -/
def Obligations.LoadIndex : Prop :=
  ∀ (s : State) (nnn : Word), nnn.toNat < 4096 →
    WordOf (0xA000 + nnn.toNat) (.ldI nnn) ∧ ∃ t, exec (.ldI nnn) s = .next t ∧ t.i = nnn ∧ IndexFrame s t

/-- `Fx1E` and `Fx29` (R191, R192): I := (I + Vx) mod 4096 (the wrap is the spec's decision D2) and I := 5 Vx with all 8 bits
of Vx (decision D17); nothing else changes, VF included. -/
def Obligations.AddIndexAndGlyphAddress : Prop :=
  ∀ (s : State) (x : Reg),
    (WordOf (0xF01E + x.val * 256) (.addI x) ∧
      ∃ t, exec (.addI x) s = .next t ∧ t.i.toNat = (s.i.toNat + (s.readV x).toNat) % 4096 ∧ IndexFrame s t) ∧
    (WordOf (0xF029 + x.val * 256) (.ldF x) ∧
      ∃ t, exec (.ldF x) s = .next t ∧ t.i.toNat = (s.readV x).toNat * 5 ∧ IndexFrame s t)

/-- `Fx33` (R193): the hundreds, tens and ones digits of Vx go to I, I + 1 and I + 2, each modulo 4096 (the spec's decision D2);
every other byte, I (decision D16), the registers and everything else stay. -/
def Obligations.StoreDecimalDigits : Prop :=
  ∀ (s : State) (x : Reg), Memory.wf s.mem = true →
    WordOf (0xF033 + x.val * 256) (.ldB x) ∧
    ∃ t, exec (.ldB x) s = .next t ∧
      (t.readByte (s.ea 0)).toNat = (s.readV x).toNat / 100 ∧
      (t.readByte (s.ea 1)).toNat = (s.readV x).toNat / 10 % 10 ∧
      (t.readByte (s.ea 2)).toNat = (s.readV x).toNat % 10 ∧
      StoreFrame [s.ea 0, s.ea 1, s.ea 2] s t

/-- `Fx55` (R194): V0 to Vx, x included, go to I + 0 to I + x, each modulo 4096 (the spec's decision D2); every other byte,
I (decision D16), the registers and everything else stay. -/
def Obligations.StoreRegisters : Prop :=
  ∀ (s : State) (x : Reg), Memory.wf s.mem = true →
    WordOf (0xF055 + x.val * 256) (.stRegs x) ∧
    ∃ t, exec (.stRegs x) s = .next t ∧ (∀ r : Reg, r ≤ x → t.readByte (s.ea r.val) = s.readV r) ∧
      StoreFrame ((List.range (x.val + 1)).map s.ea) s t

/-- `Fx65` (R195): V0 to Vx, x included, are loaded from I + 0 to I + x, each modulo 4096 (the spec's decision D2); the
registers above Vx, I (decision D16), memory and everything else stay. -/
def Obligations.LoadRegisters : Prop :=
  ∀ (s : State) (x : Reg),
    WordOf (0xF065 + x.val * 256) (.ldRegs x) ∧
    ∃ t, exec (.ldRegs x) s = .next t ∧ (∀ r : Reg, r ≤ x → t.readV r = s.readByte (s.i.toNat + r.val)) ∧
      RegFrame (upTo x) s t

/-- "A store is seen by every later fetch, the very next one included" (R75, the spec's decision D22): after `Fx55` with
x ≥ 1, a fetch at I finds the word V0, V1. -/
def Obligations.StoredWordIsFetched : Prop :=
  ∀ (s : State) (x : Reg), Memory.wf s.mem = true → s.i.toNat < 4096 → 1 ≤ x.val →
    ∃ t, exec (.stRegs x) s = .next t ∧
      (State.fetchWord { t with pc := s.i }).toNat = (s.readV 0).toNat * 256 + (s.readV 1).toNat

/-! ### Display (46_display.md) -/

/-- `00E0` (R213): every pixel is off afterwards; nothing else changes. -/
def Obligations.ClearDisplay : Prop :=
  WordOf 0x00E0 .cls ∧
  ∀ s : State, ∃ t, exec .cls s = .next t ∧ (∀ x y, t.display.pixel x y = false) ∧
    t.display.width = s.display.width ∧ t.display.height = s.display.height ∧
    RegsKept [] s t ∧ MemoryKept s t ∧ t = { s with display := t.display }

/-- `Dxyn` (R214, R217): the pixels of the sprite's set bits are toggled, rows and columns ascending, at the exact sums of the
coordinates, and VF := 1 where any toggle erased a pixel, else 0; nothing else changes. -/
def Obligations.DrawTogglesSprite : Prop :=
  ∀ (s : State) (x y : Reg) (n : Fin 16),
    WordOf (0xD000 + x.val * 256 + y.val * 16 + n.val) (.drw x y n) ∧
    ∃ t, exec (.drw x y n) s = .next t ∧
      t.display = (runToggles (spriteToggles s x y n.val) s.display false).1 ∧
      t.readV 15 = (if (runToggles (spriteToggles s x y n.val) s.display false).2 = true then 1 else 0) ∧
      RegsKept [15] s t ∧ MemoryKept s t ∧ t = { s with v := t.v, display := t.display }

/-- On a display in which no two pixels of one sprite coincide (at least 8 wide and n high), a draw exclusive-ors the sprite
onto the bitmap with wraparound, and VF says whether it covered a lit pixel (R211, R214, R217; display by the reference
behaviour, the spec's decision D10). -/
def Obligations.DrawIsExclusiveOr : Prop :=
  ∀ (s : State) (x y : Reg) (n : Fin 16), s.display.wf = true → 8 ≤ s.display.width → n.val ≤ s.display.height →
    ∃ t, exec (.drw x y n) s = .next t ∧
      (∀ p q, p < s.display.width → q < s.display.height →
        (Covers s x y n.val p q → t.display.pixel p q = !s.display.pixel p q) ∧
        (¬ Covers s x y n.val p q → t.display.pixel p q = s.display.pixel p q)) ∧
      (t.readV 15 = 1 ↔ ∃ p q, p < s.display.width ∧ q < s.display.height ∧ Covers s x y n.val p q ∧
        s.display.pixel p q = true) ∧
      (t.readV 15 = 0 ∨ t.readV 15 = 1)

/-- "drawing the same sprite twice at the same place restores the bitmap" (R214), on a display of any size; x and y are not
0xF, because the first draw writes VF. -/
def Obligations.DrawTwiceRestores : Prop :=
  ∀ (s : State) (x y : Reg) (n : Fin 16), s.display.wf = true → x ≠ 15 → y ≠ 15 →
    ∃ t u, exec (.drw x y n) s = .next t ∧ exec (.drw x y n) t = .next u ∧ u.display = s.display

/-! ### Keyboard wait, timers, random (47_keyboard_and_wait.md, 48_timers_and_random.md) -/

/-- `Fx0A` (R225): wait := Some(x); Vx is not written and nothing else changes. Every later step is then a no-op, and a
key-down writes the key to Vx, x = 0xF included, ends the wait and leaves the pc past the instruction. -/
def Obligations.WaitForKey : Prop :=
  ∀ (s : State) (x : Reg),
    WordOf (0xF00A + x.val * 256) (.ldVxK x) ∧
    ∃ t, exec (.ldVxK x) s = .next t ∧ t.wait = some x ∧ RegsKept [] s t ∧ MemoryKept s t ∧
      t = { s with wait := t.wait } ∧ issue .step t = .next t ∧
      (s.fault = none → ∀ k : Fin 16, ∃ u, issue (.keyDown k) t = .next u ∧ (u.readV x).toNat = k.val ∧ u.wait = none ∧
        u.pc = s.pc)

/-- `Fx07`, `Fx15`, `Fx18` (R240, R241, R242): Vx := DT, DT := Vx, ST := Vx; nothing else changes, the tone included. -/
def Obligations.TimerTransfers : Prop :=
  ∀ (s : State) (x : Reg),
    (WordOf (0xF007 + x.val * 256) (.ldVxDt x) ∧
      ∃ t, exec (.ldVxDt x) s = .next t ∧ t.readV x = s.dt ∧ RegFrame [x] s t) ∧
    (WordOf (0xF015 + x.val * 256) (.ldDtVx x) ∧
      ∃ t, exec (.ldDtVx x) s = .next t ∧ t.dt = s.readV x ∧ RegsKept [] s t ∧ MemoryKept s t ∧
        t = { s with dt := t.dt }) ∧
    (WordOf (0xF018 + x.val * 256) (.ldStVx x) ∧
      ∃ t, exec (.ldStVx x) s = .next t ∧ t.st = s.readV x ∧ RegsKept [] s t ∧ MemoryKept s t ∧
        t = { s with st := t.st })

/-- `Cxkk` (R243): Vx := r & kk, r being the one byte drawn; nothing else changes but that the draw is used up. The draw is a
free value that the model's own counter `draws` picks: the statement holds for every value of it (the spec's decision D23,
log entry 8). -/
def Obligations.RandomAnd : Prop :=
  ∀ (s : State) (x : Reg) (kk : Byte),
    WordOf (0xC000 + x.val * 256 + kk.toNat) (.rnd x kk) ∧
    ∃ t, exec (.rnd x kk) s = .next t ∧ t.readV x = Config.randomByte s.draws &&& kk ∧ t.draws = s.draws + 1 ∧
      RegsKept [x] s t ∧ MemoryKept s t ∧ t = { s with v := t.v, draws := t.draws }
end

