-- ==== Sys2Proof/Laws/Decode.lean ====
section
/-! SUPPORT. The fields of a word and the words of the formats as numbers (R92, R93), and the fields of encoded words. -/

namespace Sys2Proof

/-! ### Register fields -/

@[simp] theorem bitsOfReg_regOfBits (b : BitVec 4) : bitsOfReg (regOfBits b) = b := by
  apply BitVec.eq_of_toNat_eq
  simp [bitsOfReg, regOfBits]

@[simp] theorem regOfBits_bitsOfReg (r : Reg) : regOfBits (bitsOfReg r) = r := by
  ext
  simp only [bitsOfReg, regOfBits, BitVec.toNat_ofNat]
  omega

@[simp] theorem bitsOfReg_toNat (r : Reg) : (bitsOfReg r).toNat = r.val := by
  simp only [bitsOfReg, BitVec.toNat_ofNat]
  omega

/-! ### Fields as numbers (R92) -/

theorem fieldFamily_toNat (op : Word) : (fieldFamily op).toNat = op.toNat / 4096 := by
  simp only [fieldFamily, BitVec.extractLsb'_toNat, Nat.shiftRight_eq_div_pow]
  omega

theorem fieldX_val (op : Word) : (fieldX op).val = op.toNat / 256 % 16 := by
  simp [fieldX, regOfBits, BitVec.extractLsb'_toNat, Nat.shiftRight_eq_div_pow]

theorem fieldY_val (op : Word) : (fieldY op).val = op.toNat / 16 % 16 := by
  simp [fieldY, regOfBits, BitVec.extractLsb'_toNat, Nat.shiftRight_eq_div_pow]

theorem fieldN_toNat (op : Word) : (fieldN op).toNat = op.toNat % 16 := by
  simp [fieldN, BitVec.extractLsb'_toNat]

theorem fieldKk_toNat (op : Word) : (fieldKk op).toNat = op.toNat % 256 := by
  simp [fieldKk, BitVec.extractLsb'_toNat]

theorem fieldNnn_toNat (op : Word) : (fieldNnn op).toNat = op.toNat % 4096 := by
  simp [fieldNnn, BitVec.extractLsb'_toNat]
  omega

/-- The check of an address operand as a bound (R94). -/
theorem addressOk_iff (a : Word) : addressOk a = true ↔ a.toNat < 4096 := by simp [addressOk]

/-! ### Words of the formats as numbers (R93) -/

theorem encodeAddr_toNat (f : BitVec 4) (a : Word) : (encodeAddr f a).toNat = f.toNat * 4096 + a.toNat % 4096 := by
  rw [encodeAddr, BitVec.toNat_append, Nat.shiftLeft_eq, Nat.mul_comm, ← Nat.two_pow_add_eq_or_of_lt (BitVec.isLt _)]
  simp only [BitVec.toNat_setWidth]

theorem encodeRegByte_toNat (f : BitVec 4) (x : Reg) (kk : Byte) :
    (encodeRegByte f x kk).toNat = f.toNat * 4096 + x.val * 256 + kk.toNat := by
  rw [encodeRegByte, BitVec.toNat_append, BitVec.toNat_append, Nat.shiftLeft_eq, Nat.shiftLeft_eq, Nat.mul_comm,
    ← Nat.two_pow_add_eq_or_of_lt (BitVec.isLt _), Nat.mul_comm f.toNat, ← Nat.two_pow_add_eq_or_of_lt (BitVec.isLt _)]
  simp only [bitsOfReg_toNat]
  omega

theorem encodeRegReg_toNat (f : BitVec 4) (x y : Reg) (n : BitVec 4) :
    (encodeRegReg f x y n).toNat = f.toNat * 4096 + x.val * 256 + y.val * 16 + n.toNat := by
  rw [encodeRegReg, BitVec.toNat_append, BitVec.toNat_append, BitVec.toNat_append, Nat.shiftLeft_eq, Nat.shiftLeft_eq,
    Nat.shiftLeft_eq, Nat.mul_comm, ← Nat.two_pow_add_eq_or_of_lt (BitVec.isLt _), Nat.mul_comm _ (2 ^ 4),
    ← Nat.two_pow_add_eq_or_of_lt (BitVec.isLt _), Nat.mul_comm f.toNat, ← Nat.two_pow_add_eq_or_of_lt (BitVec.isLt _)]
  simp only [bitsOfReg_toNat]
  omega

/-- The fetched word as a number: the byte at the lower address is the high one (R64). -/
theorem wordOfBytes_toNat (hi lo : Byte) : (wordOfBytes hi lo).toNat = hi.toNat * 256 + lo.toNat := by
  rw [wordOfBytes, BitVec.toNat_append, Nat.shiftLeft_eq, Nat.mul_comm, ← Nat.two_pow_add_eq_or_of_lt (BitVec.isLt _)]

/-! ### The fields of encoded words -/

@[simp] theorem fieldFamily_encodeAddr (f : BitVec 4) (a : Word) : fieldFamily (encodeAddr f a) = f := by
  apply BitVec.eq_of_toNat_eq
  rw [fieldFamily_toNat, encodeAddr_toNat]
  omega

/-- `nnn` survives the format where it is a 12-bit address. -/
theorem fieldNnn_encodeAddr (f : BitVec 4) (a : Word) (h : addressOk a = true) : fieldNnn (encodeAddr f a) = a := by
  have h' := (addressOk_iff a).mp h
  apply BitVec.eq_of_toNat_eq
  rw [fieldNnn_toNat, encodeAddr_toNat]
  omega

@[simp] theorem fieldFamily_encodeRegByte (f : BitVec 4) (x : Reg) (kk : Byte) :
    fieldFamily (encodeRegByte f x kk) = f := by
  apply BitVec.eq_of_toNat_eq
  rw [fieldFamily_toNat, encodeRegByte_toNat]
  omega

@[simp] theorem fieldX_encodeRegByte (f : BitVec 4) (x : Reg) (kk : Byte) : fieldX (encodeRegByte f x kk) = x := by
  ext
  rw [fieldX_val, encodeRegByte_toNat]
  omega

@[simp] theorem fieldKk_encodeRegByte (f : BitVec 4) (x : Reg) (kk : Byte) : fieldKk (encodeRegByte f x kk) = kk := by
  apply BitVec.eq_of_toNat_eq
  rw [fieldKk_toNat, encodeRegByte_toNat]
  omega

@[simp] theorem fieldFamily_encodeRegReg (f : BitVec 4) (x y : Reg) (n : BitVec 4) :
    fieldFamily (encodeRegReg f x y n) = f := by
  apply BitVec.eq_of_toNat_eq
  rw [fieldFamily_toNat, encodeRegReg_toNat]
  omega

@[simp] theorem fieldX_encodeRegReg (f : BitVec 4) (x y : Reg) (n : BitVec 4) : fieldX (encodeRegReg f x y n) = x := by
  ext
  rw [fieldX_val, encodeRegReg_toNat]
  omega

@[simp] theorem fieldY_encodeRegReg (f : BitVec 4) (x y : Reg) (n : BitVec 4) : fieldY (encodeRegReg f x y n) = y := by
  ext
  rw [fieldY_val, encodeRegReg_toNat]
  omega

@[simp] theorem fieldN_encodeRegReg (f : BitVec 4) (x y : Reg) (n : BitVec 4) : fieldN (encodeRegReg f x y n) = n := by
  apply BitVec.eq_of_toNat_eq
  rw [fieldN_toNat, encodeRegReg_toNat]
  omega

/-! ### The first level of decoding, one lemma per family (R95, R123) -/

/-- A 4-bit field is one of its 16 values. -/
theorem nibble_cases (f : BitVec 4) :
    f = 0x0#4 ∨ f = 0x1#4 ∨ f = 0x2#4 ∨ f = 0x3#4 ∨ f = 0x4#4 ∨ f = 0x5#4 ∨ f = 0x6#4 ∨ f = 0x7#4 ∨
    f = 0x8#4 ∨ f = 0x9#4 ∨ f = 0xA#4 ∨ f = 0xB#4 ∨ f = 0xC#4 ∨ f = 0xD#4 ∨ f = 0xE#4 ∨ f = 0xF#4 := by
  revert f; decide

section
variable {w : Word}

theorem decodeWord_family0 (h : fieldFamily w = 0x0#4) : decodeWord w = decodeFamily0 w := by
  simp [decodeWord, h]

theorem decodeWord_family1 (h : fieldFamily w = 0x1#4) : decodeWord w = .instr (.jp (fieldNnn w)) := by
  simp [decodeWord, h]

theorem decodeWord_family2 (h : fieldFamily w = 0x2#4) : decodeWord w = .instr (.call (fieldNnn w)) := by
  simp [decodeWord, h]

theorem decodeWord_family3 (h : fieldFamily w = 0x3#4) : decodeWord w = .instr (.seImm (fieldX w) (fieldKk w)) := by
  simp [decodeWord, h]

theorem decodeWord_family4 (h : fieldFamily w = 0x4#4) : decodeWord w = .instr (.sneImm (fieldX w) (fieldKk w)) := by
  simp [decodeWord, h]

theorem decodeWord_family5 (h : fieldFamily w = 0x5#4) : decodeWord w = decodeFamily5 w := by
  simp [decodeWord, h]

theorem decodeWord_family6 (h : fieldFamily w = 0x6#4) : decodeWord w = .instr (.ldImm (fieldX w) (fieldKk w)) := by
  simp [decodeWord, h]

theorem decodeWord_family7 (h : fieldFamily w = 0x7#4) : decodeWord w = .instr (.addImm (fieldX w) (fieldKk w)) := by
  simp [decodeWord, h]

theorem decodeWord_family8 (h : fieldFamily w = 0x8#4) : decodeWord w = decodeFamily8 w := by
  simp [decodeWord, h]

theorem decodeWord_family9 (h : fieldFamily w = 0x9#4) : decodeWord w = decodeFamily9 w := by
  simp [decodeWord, h]

theorem decodeWord_familyA (h : fieldFamily w = 0xA#4) : decodeWord w = .instr (.ldI (fieldNnn w)) := by
  simp [decodeWord, h]

theorem decodeWord_familyB (h : fieldFamily w = 0xB#4) : decodeWord w = .instr (.jpV0 (fieldNnn w)) := by
  simp [decodeWord, h]

theorem decodeWord_familyC (h : fieldFamily w = 0xC#4) : decodeWord w = .instr (.rnd (fieldX w) (fieldKk w)) := by
  simp [decodeWord, h]

theorem decodeWord_familyD (h : fieldFamily w = 0xD#4) : decodeWord w = .instr (.drw (fieldX w) (fieldY w) (regOfBits (fieldN w))) := by
  simp [decodeWord, h]

theorem decodeWord_familyE (h : fieldFamily w = 0xE#4) : decodeWord w = decodeFamilyE w := by
  simp [decodeWord, h]

theorem decodeWord_familyF (h : fieldFamily w = 0xF#4) : decodeWord w = decodeFamilyF w := by
  simp [decodeWord, h]

end

/-! ### Bytes and words -/

@[simp] theorem decode_bytesOfWord (op : Word) (rest : List Byte) :
    decode (bytesOfWord op ++ rest) = (decodeWord op, rest) := by
  have h : wordOfBytes (op.extractLsb' 8 8) (op.extractLsb' 0 8) = op := by
    apply BitVec.eq_of_toNat_eq
    rw [wordOfBytes_toNat]
    simp only [BitVec.extractLsb'_toNat, Nat.shiftRight_eq_div_pow]
    omega
  simp [decode, bytesOfWord, h]

end Sys2Proof
end

