-- ==== Sys2Proof/Laws/State.lean ====
section
/-! SUPPORT. One lemma per field per named update of the state, and the reads of registers and memory across them, so that
no later proof unfolds a record update. -/

namespace Sys2Proof.Machine

variable (s : State)

/-! ### writeByte -/

@[simp] theorem State.writeByte_mem (a : Nat) (b : Byte) : (s.writeByte a b).mem = Memory.set s.mem (a % memSize) b := rfl
@[simp] theorem State.writeByte_v (a : Nat) (b : Byte) : (s.writeByte a b).v = s.v := rfl
@[simp] theorem State.writeByte_i (a : Nat) (b : Byte) : (s.writeByte a b).i = s.i := rfl
@[simp] theorem State.writeByte_pc (a : Nat) (b : Byte) : (s.writeByte a b).pc = s.pc := rfl
@[simp] theorem State.writeByte_stack (a : Nat) (b : Byte) : (s.writeByte a b).stack = s.stack := rfl
@[simp] theorem State.writeByte_sp (a : Nat) (b : Byte) : (s.writeByte a b).sp = s.sp := rfl
@[simp] theorem State.writeByte_dt (a : Nat) (b : Byte) : (s.writeByte a b).dt = s.dt := rfl
@[simp] theorem State.writeByte_st (a : Nat) (b : Byte) : (s.writeByte a b).st = s.st := rfl
@[simp] theorem State.writeByte_wait (a : Nat) (b : Byte) : (s.writeByte a b).wait = s.wait := rfl
@[simp] theorem State.writeByte_fault (a : Nat) (b : Byte) : (s.writeByte a b).fault = s.fault := rfl
@[simp] theorem State.writeByte_faultOp (a : Nat) (b : Byte) : (s.writeByte a b).faultOp = s.faultOp := rfl
@[simp] theorem State.writeByte_faultPc (a : Nat) (b : Byte) : (s.writeByte a b).faultPc = s.faultPc := rfl
@[simp] theorem State.writeByte_tone (a : Nat) (b : Byte) : (s.writeByte a b).tone = s.tone := rfl
@[simp] theorem State.writeByte_display (a : Nat) (b : Byte) : (s.writeByte a b).display = s.display := rfl
@[simp] theorem State.writeByte_keys (a : Nat) (b : Byte) : (s.writeByte a b).keys = s.keys := rfl
@[simp] theorem State.writeByte_draws (a : Nat) (b : Byte) : (s.writeByte a b).draws = s.draws := rfl
@[simp] theorem State.writeByte_loadable (a : Nat) (b : Byte) : (s.writeByte a b).loadable = s.loadable := rfl
@[simp] theorem State.writeByte_pending (a : Nat) (b : Byte) : (s.writeByte a b).pending = s.pending := rfl

/-! ### writeV -/

@[simp] theorem State.writeV_mem (r : Reg) (b : Byte) : (s.writeV r b).mem = s.mem := rfl
@[simp] theorem State.writeV_v (r : Reg) (b : Byte) : (s.writeV r b).v = s.v.set r.val b := rfl
@[simp] theorem State.writeV_i (r : Reg) (b : Byte) : (s.writeV r b).i = s.i := rfl
@[simp] theorem State.writeV_pc (r : Reg) (b : Byte) : (s.writeV r b).pc = s.pc := rfl
@[simp] theorem State.writeV_stack (r : Reg) (b : Byte) : (s.writeV r b).stack = s.stack := rfl
@[simp] theorem State.writeV_sp (r : Reg) (b : Byte) : (s.writeV r b).sp = s.sp := rfl
@[simp] theorem State.writeV_dt (r : Reg) (b : Byte) : (s.writeV r b).dt = s.dt := rfl
@[simp] theorem State.writeV_st (r : Reg) (b : Byte) : (s.writeV r b).st = s.st := rfl
@[simp] theorem State.writeV_wait (r : Reg) (b : Byte) : (s.writeV r b).wait = s.wait := rfl
@[simp] theorem State.writeV_fault (r : Reg) (b : Byte) : (s.writeV r b).fault = s.fault := rfl
@[simp] theorem State.writeV_faultOp (r : Reg) (b : Byte) : (s.writeV r b).faultOp = s.faultOp := rfl
@[simp] theorem State.writeV_faultPc (r : Reg) (b : Byte) : (s.writeV r b).faultPc = s.faultPc := rfl
@[simp] theorem State.writeV_tone (r : Reg) (b : Byte) : (s.writeV r b).tone = s.tone := rfl
@[simp] theorem State.writeV_display (r : Reg) (b : Byte) : (s.writeV r b).display = s.display := rfl
@[simp] theorem State.writeV_keys (r : Reg) (b : Byte) : (s.writeV r b).keys = s.keys := rfl
@[simp] theorem State.writeV_draws (r : Reg) (b : Byte) : (s.writeV r b).draws = s.draws := rfl
@[simp] theorem State.writeV_loadable (r : Reg) (b : Byte) : (s.writeV r b).loadable = s.loadable := rfl
@[simp] theorem State.writeV_pending (r : Reg) (b : Byte) : (s.writeV r b).pending = s.pending := rfl

/-! ### setI -/

@[simp] theorem State.setI_mem (n : Nat) : (s.setI n).mem = s.mem := rfl
@[simp] theorem State.setI_v (n : Nat) : (s.setI n).v = s.v := rfl
@[simp] theorem State.setI_i (n : Nat) : (s.setI n).i = addressWord n := rfl
@[simp] theorem State.setI_pc (n : Nat) : (s.setI n).pc = s.pc := rfl
@[simp] theorem State.setI_stack (n : Nat) : (s.setI n).stack = s.stack := rfl
@[simp] theorem State.setI_sp (n : Nat) : (s.setI n).sp = s.sp := rfl
@[simp] theorem State.setI_dt (n : Nat) : (s.setI n).dt = s.dt := rfl
@[simp] theorem State.setI_st (n : Nat) : (s.setI n).st = s.st := rfl
@[simp] theorem State.setI_wait (n : Nat) : (s.setI n).wait = s.wait := rfl
@[simp] theorem State.setI_fault (n : Nat) : (s.setI n).fault = s.fault := rfl
@[simp] theorem State.setI_faultOp (n : Nat) : (s.setI n).faultOp = s.faultOp := rfl
@[simp] theorem State.setI_faultPc (n : Nat) : (s.setI n).faultPc = s.faultPc := rfl
@[simp] theorem State.setI_tone (n : Nat) : (s.setI n).tone = s.tone := rfl
@[simp] theorem State.setI_display (n : Nat) : (s.setI n).display = s.display := rfl
@[simp] theorem State.setI_keys (n : Nat) : (s.setI n).keys = s.keys := rfl
@[simp] theorem State.setI_draws (n : Nat) : (s.setI n).draws = s.draws := rfl
@[simp] theorem State.setI_loadable (n : Nat) : (s.setI n).loadable = s.loadable := rfl
@[simp] theorem State.setI_pending (n : Nat) : (s.setI n).pending = s.pending := rfl

/-! ### setPc -/

@[simp] theorem State.setPc_mem (n : Nat) : (s.setPc n).mem = s.mem := rfl
@[simp] theorem State.setPc_v (n : Nat) : (s.setPc n).v = s.v := rfl
@[simp] theorem State.setPc_i (n : Nat) : (s.setPc n).i = s.i := rfl
@[simp] theorem State.setPc_pc (n : Nat) : (s.setPc n).pc = addressWord n := rfl
@[simp] theorem State.setPc_stack (n : Nat) : (s.setPc n).stack = s.stack := rfl
@[simp] theorem State.setPc_sp (n : Nat) : (s.setPc n).sp = s.sp := rfl
@[simp] theorem State.setPc_dt (n : Nat) : (s.setPc n).dt = s.dt := rfl
@[simp] theorem State.setPc_st (n : Nat) : (s.setPc n).st = s.st := rfl
@[simp] theorem State.setPc_wait (n : Nat) : (s.setPc n).wait = s.wait := rfl
@[simp] theorem State.setPc_fault (n : Nat) : (s.setPc n).fault = s.fault := rfl
@[simp] theorem State.setPc_faultOp (n : Nat) : (s.setPc n).faultOp = s.faultOp := rfl
@[simp] theorem State.setPc_faultPc (n : Nat) : (s.setPc n).faultPc = s.faultPc := rfl
@[simp] theorem State.setPc_tone (n : Nat) : (s.setPc n).tone = s.tone := rfl
@[simp] theorem State.setPc_display (n : Nat) : (s.setPc n).display = s.display := rfl
@[simp] theorem State.setPc_keys (n : Nat) : (s.setPc n).keys = s.keys := rfl
@[simp] theorem State.setPc_draws (n : Nat) : (s.setPc n).draws = s.draws := rfl
@[simp] theorem State.setPc_loadable (n : Nat) : (s.setPc n).loadable = s.loadable := rfl
@[simp] theorem State.setPc_pending (n : Nat) : (s.setPc n).pending = s.pending := rfl

/-! ### setDt -/

@[simp] theorem State.setDt_mem (b : Byte) : (s.setDt b).mem = s.mem := rfl
@[simp] theorem State.setDt_v (b : Byte) : (s.setDt b).v = s.v := rfl
@[simp] theorem State.setDt_i (b : Byte) : (s.setDt b).i = s.i := rfl
@[simp] theorem State.setDt_pc (b : Byte) : (s.setDt b).pc = s.pc := rfl
@[simp] theorem State.setDt_stack (b : Byte) : (s.setDt b).stack = s.stack := rfl
@[simp] theorem State.setDt_sp (b : Byte) : (s.setDt b).sp = s.sp := rfl
@[simp] theorem State.setDt_dt (b : Byte) : (s.setDt b).dt = b := rfl
@[simp] theorem State.setDt_st (b : Byte) : (s.setDt b).st = s.st := rfl
@[simp] theorem State.setDt_wait (b : Byte) : (s.setDt b).wait = s.wait := rfl
@[simp] theorem State.setDt_fault (b : Byte) : (s.setDt b).fault = s.fault := rfl
@[simp] theorem State.setDt_faultOp (b : Byte) : (s.setDt b).faultOp = s.faultOp := rfl
@[simp] theorem State.setDt_faultPc (b : Byte) : (s.setDt b).faultPc = s.faultPc := rfl
@[simp] theorem State.setDt_tone (b : Byte) : (s.setDt b).tone = s.tone := rfl
@[simp] theorem State.setDt_display (b : Byte) : (s.setDt b).display = s.display := rfl
@[simp] theorem State.setDt_keys (b : Byte) : (s.setDt b).keys = s.keys := rfl
@[simp] theorem State.setDt_draws (b : Byte) : (s.setDt b).draws = s.draws := rfl
@[simp] theorem State.setDt_loadable (b : Byte) : (s.setDt b).loadable = s.loadable := rfl
@[simp] theorem State.setDt_pending (b : Byte) : (s.setDt b).pending = s.pending := rfl

/-! ### setSt -/

@[simp] theorem State.setSt_mem (b : Byte) : (s.setSt b).mem = s.mem := rfl
@[simp] theorem State.setSt_v (b : Byte) : (s.setSt b).v = s.v := rfl
@[simp] theorem State.setSt_i (b : Byte) : (s.setSt b).i = s.i := rfl
@[simp] theorem State.setSt_pc (b : Byte) : (s.setSt b).pc = s.pc := rfl
@[simp] theorem State.setSt_stack (b : Byte) : (s.setSt b).stack = s.stack := rfl
@[simp] theorem State.setSt_sp (b : Byte) : (s.setSt b).sp = s.sp := rfl
@[simp] theorem State.setSt_dt (b : Byte) : (s.setSt b).dt = s.dt := rfl
@[simp] theorem State.setSt_st (b : Byte) : (s.setSt b).st = b := rfl
@[simp] theorem State.setSt_wait (b : Byte) : (s.setSt b).wait = s.wait := rfl
@[simp] theorem State.setSt_fault (b : Byte) : (s.setSt b).fault = s.fault := rfl
@[simp] theorem State.setSt_faultOp (b : Byte) : (s.setSt b).faultOp = s.faultOp := rfl
@[simp] theorem State.setSt_faultPc (b : Byte) : (s.setSt b).faultPc = s.faultPc := rfl
@[simp] theorem State.setSt_tone (b : Byte) : (s.setSt b).tone = s.tone := rfl
@[simp] theorem State.setSt_display (b : Byte) : (s.setSt b).display = s.display := rfl
@[simp] theorem State.setSt_keys (b : Byte) : (s.setSt b).keys = s.keys := rfl
@[simp] theorem State.setSt_draws (b : Byte) : (s.setSt b).draws = s.draws := rfl
@[simp] theorem State.setSt_loadable (b : Byte) : (s.setSt b).loadable = s.loadable := rfl
@[simp] theorem State.setSt_pending (b : Byte) : (s.setSt b).pending = s.pending := rfl

/-! ### setWait -/

@[simp] theorem State.setWait_mem (w : Option Reg) : (s.setWait w).mem = s.mem := rfl
@[simp] theorem State.setWait_v (w : Option Reg) : (s.setWait w).v = s.v := rfl
@[simp] theorem State.setWait_i (w : Option Reg) : (s.setWait w).i = s.i := rfl
@[simp] theorem State.setWait_pc (w : Option Reg) : (s.setWait w).pc = s.pc := rfl
@[simp] theorem State.setWait_stack (w : Option Reg) : (s.setWait w).stack = s.stack := rfl
@[simp] theorem State.setWait_sp (w : Option Reg) : (s.setWait w).sp = s.sp := rfl
@[simp] theorem State.setWait_dt (w : Option Reg) : (s.setWait w).dt = s.dt := rfl
@[simp] theorem State.setWait_st (w : Option Reg) : (s.setWait w).st = s.st := rfl
@[simp] theorem State.setWait_wait (w : Option Reg) : (s.setWait w).wait = w := rfl
@[simp] theorem State.setWait_fault (w : Option Reg) : (s.setWait w).fault = s.fault := rfl
@[simp] theorem State.setWait_faultOp (w : Option Reg) : (s.setWait w).faultOp = s.faultOp := rfl
@[simp] theorem State.setWait_faultPc (w : Option Reg) : (s.setWait w).faultPc = s.faultPc := rfl
@[simp] theorem State.setWait_tone (w : Option Reg) : (s.setWait w).tone = s.tone := rfl
@[simp] theorem State.setWait_display (w : Option Reg) : (s.setWait w).display = s.display := rfl
@[simp] theorem State.setWait_keys (w : Option Reg) : (s.setWait w).keys = s.keys := rfl
@[simp] theorem State.setWait_draws (w : Option Reg) : (s.setWait w).draws = s.draws := rfl
@[simp] theorem State.setWait_loadable (w : Option Reg) : (s.setWait w).loadable = s.loadable := rfl
@[simp] theorem State.setWait_pending (w : Option Reg) : (s.setWait w).pending = s.pending := rfl

/-! ### setDisplay -/

@[simp] theorem State.setDisplay_mem (d : Display) : (s.setDisplay d).mem = s.mem := rfl
@[simp] theorem State.setDisplay_v (d : Display) : (s.setDisplay d).v = s.v := rfl
@[simp] theorem State.setDisplay_i (d : Display) : (s.setDisplay d).i = s.i := rfl
@[simp] theorem State.setDisplay_pc (d : Display) : (s.setDisplay d).pc = s.pc := rfl
@[simp] theorem State.setDisplay_stack (d : Display) : (s.setDisplay d).stack = s.stack := rfl
@[simp] theorem State.setDisplay_sp (d : Display) : (s.setDisplay d).sp = s.sp := rfl
@[simp] theorem State.setDisplay_dt (d : Display) : (s.setDisplay d).dt = s.dt := rfl
@[simp] theorem State.setDisplay_st (d : Display) : (s.setDisplay d).st = s.st := rfl
@[simp] theorem State.setDisplay_wait (d : Display) : (s.setDisplay d).wait = s.wait := rfl
@[simp] theorem State.setDisplay_fault (d : Display) : (s.setDisplay d).fault = s.fault := rfl
@[simp] theorem State.setDisplay_faultOp (d : Display) : (s.setDisplay d).faultOp = s.faultOp := rfl
@[simp] theorem State.setDisplay_faultPc (d : Display) : (s.setDisplay d).faultPc = s.faultPc := rfl
@[simp] theorem State.setDisplay_tone (d : Display) : (s.setDisplay d).tone = s.tone := rfl
@[simp] theorem State.setDisplay_display (d : Display) : (s.setDisplay d).display = d := rfl
@[simp] theorem State.setDisplay_keys (d : Display) : (s.setDisplay d).keys = s.keys := rfl
@[simp] theorem State.setDisplay_draws (d : Display) : (s.setDisplay d).draws = s.draws := rfl
@[simp] theorem State.setDisplay_loadable (d : Display) : (s.setDisplay d).loadable = s.loadable := rfl
@[simp] theorem State.setDisplay_pending (d : Display) : (s.setDisplay d).pending = s.pending := rfl

/-! ### setKeys -/

@[simp] theorem State.setKeys_mem (p : Vector Bool 16) : (s.setKeys p).mem = s.mem := rfl
@[simp] theorem State.setKeys_v (p : Vector Bool 16) : (s.setKeys p).v = s.v := rfl
@[simp] theorem State.setKeys_i (p : Vector Bool 16) : (s.setKeys p).i = s.i := rfl
@[simp] theorem State.setKeys_pc (p : Vector Bool 16) : (s.setKeys p).pc = s.pc := rfl
@[simp] theorem State.setKeys_stack (p : Vector Bool 16) : (s.setKeys p).stack = s.stack := rfl
@[simp] theorem State.setKeys_sp (p : Vector Bool 16) : (s.setKeys p).sp = s.sp := rfl
@[simp] theorem State.setKeys_dt (p : Vector Bool 16) : (s.setKeys p).dt = s.dt := rfl
@[simp] theorem State.setKeys_st (p : Vector Bool 16) : (s.setKeys p).st = s.st := rfl
@[simp] theorem State.setKeys_wait (p : Vector Bool 16) : (s.setKeys p).wait = s.wait := rfl
@[simp] theorem State.setKeys_fault (p : Vector Bool 16) : (s.setKeys p).fault = s.fault := rfl
@[simp] theorem State.setKeys_faultOp (p : Vector Bool 16) : (s.setKeys p).faultOp = s.faultOp := rfl
@[simp] theorem State.setKeys_faultPc (p : Vector Bool 16) : (s.setKeys p).faultPc = s.faultPc := rfl
@[simp] theorem State.setKeys_tone (p : Vector Bool 16) : (s.setKeys p).tone = s.tone := rfl
@[simp] theorem State.setKeys_display (p : Vector Bool 16) : (s.setKeys p).display = s.display := rfl
@[simp] theorem State.setKeys_keys (p : Vector Bool 16) : (s.setKeys p).keys = p := rfl
@[simp] theorem State.setKeys_draws (p : Vector Bool 16) : (s.setKeys p).draws = s.draws := rfl
@[simp] theorem State.setKeys_loadable (p : Vector Bool 16) : (s.setKeys p).loadable = s.loadable := rfl
@[simp] theorem State.setKeys_pending (p : Vector Bool 16) : (s.setKeys p).pending = s.pending := rfl

/-! ### drawn -/

@[simp] theorem State.drawn_mem : (s.drawn).mem = s.mem := rfl
@[simp] theorem State.drawn_v : (s.drawn).v = s.v := rfl
@[simp] theorem State.drawn_i : (s.drawn).i = s.i := rfl
@[simp] theorem State.drawn_pc : (s.drawn).pc = s.pc := rfl
@[simp] theorem State.drawn_stack : (s.drawn).stack = s.stack := rfl
@[simp] theorem State.drawn_sp : (s.drawn).sp = s.sp := rfl
@[simp] theorem State.drawn_dt : (s.drawn).dt = s.dt := rfl
@[simp] theorem State.drawn_st : (s.drawn).st = s.st := rfl
@[simp] theorem State.drawn_wait : (s.drawn).wait = s.wait := rfl
@[simp] theorem State.drawn_fault : (s.drawn).fault = s.fault := rfl
@[simp] theorem State.drawn_faultOp : (s.drawn).faultOp = s.faultOp := rfl
@[simp] theorem State.drawn_faultPc : (s.drawn).faultPc = s.faultPc := rfl
@[simp] theorem State.drawn_tone : (s.drawn).tone = s.tone := rfl
@[simp] theorem State.drawn_display : (s.drawn).display = s.display := rfl
@[simp] theorem State.drawn_keys : (s.drawn).keys = s.keys := rfl
@[simp] theorem State.drawn_draws : (s.drawn).draws = s.draws + 1 := rfl
@[simp] theorem State.drawn_loadable : (s.drawn).loadable = s.loadable := rfl
@[simp] theorem State.drawn_pending : (s.drawn).pending = s.pending := rfl

/-! ### raise -/

@[simp] theorem State.raise_mem (e : ErrorCode) (op : Word) : (s.raise e op).mem = s.mem := rfl
@[simp] theorem State.raise_v (e : ErrorCode) (op : Word) : (s.raise e op).v = s.v := rfl
@[simp] theorem State.raise_i (e : ErrorCode) (op : Word) : (s.raise e op).i = s.i := rfl
@[simp] theorem State.raise_pc (e : ErrorCode) (op : Word) : (s.raise e op).pc = s.pc := rfl
@[simp] theorem State.raise_stack (e : ErrorCode) (op : Word) : (s.raise e op).stack = s.stack := rfl
@[simp] theorem State.raise_sp (e : ErrorCode) (op : Word) : (s.raise e op).sp = s.sp := rfl
@[simp] theorem State.raise_dt (e : ErrorCode) (op : Word) : (s.raise e op).dt = s.dt := rfl
@[simp] theorem State.raise_st (e : ErrorCode) (op : Word) : (s.raise e op).st = s.st := rfl
@[simp] theorem State.raise_wait (e : ErrorCode) (op : Word) : (s.raise e op).wait = s.wait := rfl
@[simp] theorem State.raise_fault (e : ErrorCode) (op : Word) : (s.raise e op).fault = some e := rfl
@[simp] theorem State.raise_faultOp (e : ErrorCode) (op : Word) : (s.raise e op).faultOp = op := rfl
@[simp] theorem State.raise_faultPc (e : ErrorCode) (op : Word) : (s.raise e op).faultPc = BitVec.ofNat 12 ((s.pc.toNat + memSize - 2) % memSize) := rfl
@[simp] theorem State.raise_tone (e : ErrorCode) (op : Word) : (s.raise e op).tone = s.tone := rfl
@[simp] theorem State.raise_display (e : ErrorCode) (op : Word) : (s.raise e op).display = s.display := rfl
@[simp] theorem State.raise_keys (e : ErrorCode) (op : Word) : (s.raise e op).keys = s.keys := rfl
@[simp] theorem State.raise_draws (e : ErrorCode) (op : Word) : (s.raise e op).draws = s.draws := rfl
@[simp] theorem State.raise_loadable (e : ErrorCode) (op : Word) : (s.raise e op).loadable = s.loadable := rfl
@[simp] theorem State.raise_pending (e : ErrorCode) (op : Word) : (s.raise e op).pending = s.pending := rfl

/-! ### advance -/

@[simp] theorem State.advance_mem : (s.advance).mem = s.mem := rfl
@[simp] theorem State.advance_v : (s.advance).v = s.v := rfl
@[simp] theorem State.advance_i : (s.advance).i = s.i := rfl
@[simp] theorem State.advance_pc : (s.advance).pc = addressWord (s.pc.toNat + 2) := rfl
@[simp] theorem State.advance_stack : (s.advance).stack = s.stack := rfl
@[simp] theorem State.advance_sp : (s.advance).sp = s.sp := rfl
@[simp] theorem State.advance_dt : (s.advance).dt = s.dt := rfl
@[simp] theorem State.advance_st : (s.advance).st = s.st := rfl
@[simp] theorem State.advance_wait : (s.advance).wait = s.wait := rfl
@[simp] theorem State.advance_fault : (s.advance).fault = s.fault := rfl
@[simp] theorem State.advance_faultOp : (s.advance).faultOp = s.faultOp := rfl
@[simp] theorem State.advance_faultPc : (s.advance).faultPc = s.faultPc := rfl
@[simp] theorem State.advance_tone : (s.advance).tone = s.tone := rfl
@[simp] theorem State.advance_display : (s.advance).display = s.display := rfl
@[simp] theorem State.advance_keys : (s.advance).keys = s.keys := rfl
@[simp] theorem State.advance_draws : (s.advance).draws = s.draws := rfl
@[simp] theorem State.advance_loadable : (s.advance).loadable = false := rfl
@[simp] theorem State.advance_pending : (s.advance).pending = s.pending := rfl

/-! ### Reads of a register across updates of other fields -/

@[simp] theorem State.readV_writeByte (q : Reg) (a : Nat) (b : Byte) : (s.writeByte a b).readV q = s.readV q := rfl
@[simp] theorem State.readV_setI (q : Reg) (n : Nat) : (s.setI n).readV q = s.readV q := rfl
@[simp] theorem State.readV_setPc (q : Reg) (n : Nat) : (s.setPc n).readV q = s.readV q := rfl
@[simp] theorem State.readV_setDt (q : Reg) (b : Byte) : (s.setDt b).readV q = s.readV q := rfl
@[simp] theorem State.readV_setSt (q : Reg) (b : Byte) : (s.setSt b).readV q = s.readV q := rfl
@[simp] theorem State.readV_setWait (q : Reg) (w : Option Reg) : (s.setWait w).readV q = s.readV q := rfl
@[simp] theorem State.readV_setDisplay (q : Reg) (d : Display) : (s.setDisplay d).readV q = s.readV q := rfl
@[simp] theorem State.readV_setKeys (q : Reg) (p : Vector Bool 16) : (s.setKeys p).readV q = s.readV q := rfl
@[simp] theorem State.readV_drawn (q : Reg) : (s.drawn).readV q = s.readV q := rfl
@[simp] theorem State.readV_raise (q : Reg) (e : ErrorCode) (op : Word) : (s.raise e op).readV q = s.readV q := rfl
@[simp] theorem State.readV_advance (q : Reg) : (s.advance).readV q = s.readV q := rfl

/-! ### Reads of memory across updates of other fields -/

@[simp] theorem State.readByte_writeV (k : Nat) (r : Reg) (b : Byte) : (s.writeV r b).readByte k = s.readByte k := rfl
@[simp] theorem State.readByte_setI (k : Nat) (n : Nat) : (s.setI n).readByte k = s.readByte k := rfl
@[simp] theorem State.readByte_setPc (k : Nat) (n : Nat) : (s.setPc n).readByte k = s.readByte k := rfl
@[simp] theorem State.readByte_setDt (k : Nat) (b : Byte) : (s.setDt b).readByte k = s.readByte k := rfl
@[simp] theorem State.readByte_setSt (k : Nat) (b : Byte) : (s.setSt b).readByte k = s.readByte k := rfl
@[simp] theorem State.readByte_setWait (k : Nat) (w : Option Reg) : (s.setWait w).readByte k = s.readByte k := rfl
@[simp] theorem State.readByte_setDisplay (k : Nat) (d : Display) : (s.setDisplay d).readByte k = s.readByte k := rfl
@[simp] theorem State.readByte_setKeys (k : Nat) (p : Vector Bool 16) : (s.setKeys p).readByte k = s.readByte k := rfl
@[simp] theorem State.readByte_drawn (k : Nat) : (s.drawn).readByte k = s.readByte k := rfl
@[simp] theorem State.readByte_raise (k : Nat) (e : ErrorCode) (op : Word) : (s.raise e op).readByte k = s.readByte k := rfl
@[simp] theorem State.readByte_advance (k : Nat) : (s.advance).readByte k = s.readByte k := rfl

/-! ### Effective addresses across updates of other fields -/

@[simp] theorem State.ea_writeByte (k : Nat) (a : Nat) (b : Byte) : (s.writeByte a b).ea k = s.ea k := rfl
@[simp] theorem State.ea_writeV (k : Nat) (r : Reg) (b : Byte) : (s.writeV r b).ea k = s.ea k := rfl
@[simp] theorem State.ea_setPc (k : Nat) (n : Nat) : (s.setPc n).ea k = s.ea k := rfl
@[simp] theorem State.ea_setDt (k : Nat) (b : Byte) : (s.setDt b).ea k = s.ea k := rfl
@[simp] theorem State.ea_setSt (k : Nat) (b : Byte) : (s.setSt b).ea k = s.ea k := rfl
@[simp] theorem State.ea_setWait (k : Nat) (w : Option Reg) : (s.setWait w).ea k = s.ea k := rfl
@[simp] theorem State.ea_setDisplay (k : Nat) (d : Display) : (s.setDisplay d).ea k = s.ea k := rfl
@[simp] theorem State.ea_setKeys (k : Nat) (p : Vector Bool 16) : (s.setKeys p).ea k = s.ea k := rfl
@[simp] theorem State.ea_drawn (k : Nat) : (s.drawn).ea k = s.ea k := rfl
@[simp] theorem State.ea_raise (k : Nat) (e : ErrorCode) (op : Word) : (s.raise e op).ea k = s.ea k := rfl
@[simp] theorem State.ea_advance (k : Nat) : (s.advance).ea k = s.ea k := rfl

/-! ### A register after a write, and writes that meet -/

/-- A register reads as written, and every other register as before (R21). -/
theorem State.readV_writeV (r q : Reg) (b : Byte) : (s.writeV r b).readV q = if q = r then b else s.readV q := by
  simp only [State.readV, State.writeV, Vector.getElem_set, Fin.ext_iff, eq_comm]

@[simp] theorem State.readV_writeV_self (r : Reg) (b : Byte) : (s.writeV r b).readV r = b := by
  simp [State.readV_writeV]

theorem State.readV_writeV_ne {r q : Reg} (h : q ≠ r) (b : Byte) : (s.writeV r b).readV q = s.readV q := by
  simp [State.readV_writeV, h]

@[simp] theorem State.writeV_writeV_self (r : Reg) (b c : Byte) : (s.writeV r b).writeV r c = s.writeV r c := by
  simp [State.writeV]

/-- Writes of two registers commute. -/
theorem State.writeV_comm {r q : Reg} (h : r ≠ q) (b c : Byte) :
    (s.writeV r b).writeV q c = (s.writeV q c).writeV r b := by
  have h' : r.val ≠ q.val := fun e => h (Fin.ext e)
  simp only [State.writeV]
  rw [Vector.set_comm _ _ h']

/-- Writing back what a register holds changes nothing. -/
@[simp] theorem State.writeV_readV (r : Reg) : s.writeV r (s.readV r) = s := by
  simp [State.writeV, State.readV]

/-- Register files with equal reads are equal. -/
theorem State.v_ext {s t : State} (h : ∀ r, s.readV r = t.readV r) : s.v = t.v :=
  Vector.ext fun k hk => h ⟨k, hk⟩

/-! ### The values of I and pc (R26, R28) -/

/-- Every value written to I or pc is below 4096. -/
theorem addressWord_toNat (n : Nat) : (addressWord n).toNat = n % memSize := by
  have h : n % memSize < 4096 := Nat.mod_lt _ (by decide)
  rw [addressWord, BitVec.toNat_ofNat, Nat.mod_eq_of_lt (by omega)]

theorem addressWord_lt (n : Nat) : (addressWord n).toNat < memSize := by
  rw [addressWord_toNat]; exact Nat.mod_lt _ (by decide)

end Sys2Proof.Machine
end

