-- ==== Sys2Proof/Laws/Display.lean ====
section
/-! SUPPORT. The display port: what a toggle does to every pixel, and that it keeps the list of lit cells canonical. -/

namespace Sys2Proof.Machine

/-! ### The list of lit cells -/

/-- Below its lowest cell a canonical list has no lit cell. -/
theorem not_mem_of_litFrom {low size : Nat} {l : List Nat} (h : litFrom low size l = true) {k : Nat} (hk : k < low) :
    k ∉ l := by
  induction l generalizing low with
  | nil => simp
  | cons j rest ih =>
    simp only [litFrom, Bool.and_eq_true, decide_eq_true_eq] at h
    simp only [List.mem_cons, not_or]
    exact ⟨by omega, ih h.2 (by omega)⟩

/-- A flip changes the one cell and no other. -/
theorem mem_flipCell {low size : Nat} {l : List Nat} (h : litFrom low size l = true) (k q : Nat) :
    q ∈ flipCell k l ↔ if q = k then k ∉ l else q ∈ l := by
  induction l generalizing low with
  | nil => simp [flipCell]
  | cons j rest ih =>
    simp only [litFrom, Bool.and_eq_true, decide_eq_true_eq] at h
    obtain ⟨⟨hl, hs⟩, hr⟩ := h
    simp only [flipCell]
    have hj : ∀ {p : Nat}, p ≤ j → p ∉ rest := fun hp => not_mem_of_litFrom hr (by omega)
    by_cases h1 : k < j
    · have hk : k ∉ j :: rest := by simp [hj h1.le]; omega
      rw [if_pos h1]
      by_cases hq : q = k
      · simp [hq, hk]
      · simp [hq]
    · by_cases h2 : k = j
      · subst h2
        rw [if_neg h1, if_pos rfl]
        by_cases hq : q = k
        · simp [hq, hj le_rfl]
        · simp [hq]
      · rw [if_neg h1, if_neg h2]
        have := ih hr
        by_cases hq : q = k
        · subst hq; simp_all
        · simp_all

/-- A flip of a cell of the bitmap keeps the canonical form. -/
theorem litFrom_flipCell {low size : Nat} {l : List Nat} (h : litFrom low size l = true) {k : Nat} (hl : low ≤ k)
    (hk : k < size) : litFrom low size (flipCell k l) = true := by
  induction l generalizing low with
  | nil => simp [flipCell, litFrom, hl, hk]
  | cons j rest ih =>
    have h0 := h
    simp only [litFrom, Bool.and_eq_true, decide_eq_true_eq] at h
    obtain ⟨⟨hlj, hs⟩, hr⟩ := h
    simp only [flipCell]
    by_cases h1 : k < j
    · simp [h1, litFrom, hl, hk, hs, hr, Nat.succ_le_of_lt h1]
    · by_cases h2 : k = j
      · subst h2
        rw [if_neg h1, if_pos rfl]
        clear h0 ih
        cases rest with
        | nil => rfl
        | cons m t =>
          simp only [litFrom, Bool.and_eq_true, decide_eq_true_eq] at hr ⊢
          exact ⟨⟨by omega, hr.1.2⟩, hr.2⟩
      · rw [if_neg h1, if_neg h2]
        simp only [litFrom, Bool.and_eq_true, decide_eq_true_eq]
        exact ⟨⟨hlj, hs⟩, ih hr (by omega)⟩

/-! ### The display -/

theorem Display.cell_lt (d : Display) (hw : 0 < d.width) (hh : 0 < d.height) (x y : Nat) :
    d.cell x y < d.width * d.height := by
  have hx := Nat.mod_lt x hw
  have hy := Nat.mod_lt y hh
  calc d.cell x y < (y % d.height) * d.width + d.width := by simp only [Display.cell]; omega
    _ = (y % d.height + 1) * d.width := by ring
    _ ≤ d.height * d.width := Nat.mul_le_mul_right _ hy
    _ = d.width * d.height := Nat.mul_comm _ _

@[simp] theorem Display.toggle_width (d : Display) (x y : Nat) : (d.toggle x y).1.width = d.width := rfl
@[simp] theorem Display.toggle_height (d : Display) (x y : Nat) : (d.toggle x y).1.height = d.height := rfl
@[simp] theorem Display.toggle_lit (d : Display) (x y : Nat) :
    (d.toggle x y).1.lit = flipCell (d.cell x y) d.lit := rfl
@[simp] theorem Display.toggle_erased (d : Display) (x y : Nat) : (d.toggle x y).2 = d.pixel x y := rfl
@[simp] theorem Display.toggle_cell (d : Display) (x y p q : Nat) : (d.toggle x y).1.cell p q = d.cell p q := rfl
@[simp] theorem Display.clear_width (d : Display) : d.clear.width = d.width := rfl
@[simp] theorem Display.clear_height (d : Display) : d.clear.height = d.height := rfl
@[simp] theorem Display.clear_lit (d : Display) : d.clear.lit = [] := rfl
@[simp] theorem Display.clear_pixel (d : Display) (x y : Nat) : d.clear.pixel x y = false := rfl

/-- The parts of the display's canonical form. -/
theorem Display.wf_iff (d : Display) :
    d.wf = true ↔ 0 < d.width ∧ 0 < d.height ∧ litFrom 0 (d.width * d.height) d.lit = true := by
  simp [Display.wf, and_assoc]

theorem Display.wf_clear (d : Display) (h : d.wf = true) : d.clear.wf = true := by
  rw [Display.wf_iff] at h ⊢
  exact ⟨h.1, h.2.1, rfl⟩

theorem Display.wf_toggle (d : Display) (h : d.wf = true) (x y : Nat) : (d.toggle x y).1.wf = true := by
  rw [Display.wf_iff] at h ⊢
  exact ⟨h.1, h.2.1, litFrom_flipCell h.2.2 (Nat.zero_le _) (d.cell_lt h.1 h.2.1 x y)⟩

/-- A toggle inverts the pixels of its cell and no other (R211). -/
theorem Display.pixel_toggle (d : Display) (h : d.wf = true) (x y p q : Nat) :
    (d.toggle x y).1.pixel p q = if d.cell p q = d.cell x y then !d.pixel x y else d.pixel p q := by
  rw [Display.wf_iff] at h
  have := mem_flipCell h.2.2 (d.cell x y) (d.cell p q)
  rw [Bool.eq_iff_iff]
  simp only [Display.pixel, Display.toggle_lit, Display.toggle_cell, List.contains_iff_mem, this]
  split <;> simp

end Sys2Proof.Machine
end

