-- ==== Sys2Proof/Laws/Memory.lean ====
section
/-! SUPPORT. Memory: a write is read back and leaves every other cell alone, and every operation keeps the canonical form. -/

namespace Sys2Proof.Machine

/-! ### Read after write on the list of cells -/

/-- Below its lowest address a memory reads as after reset. -/
theorem Memory.get_below (m : Memory) (low : Nat) (h : Memory.wfFrom low m = true) (a : Nat) (ha : a < low) :
    Memory.get m a = resetByte a := by
  induction m generalizing low with
  | nil => rfl
  | cons q t ih =>
    simp only [Memory.wfFrom, Bool.and_eq_true, decide_eq_true_eq] at h
    simp only [Memory.get]
    rw [if_neg (by omega), ih _ h.2 (by omega)]

theorem Memory.get_set_self (m : Memory) (a : Nat) (b : Byte) (low : Nat) (h : Memory.wfFrom low m = true) :
    Memory.get (Memory.set m a b) a = b := by
  induction m generalizing low with
  | nil => by_cases hb : b = resetByte a <;> simp [Memory.set, Memory.get, hb]
  | cons p rest ih =>
    obtain ⟨c, d⟩ := p
    simp only [Memory.wfFrom, Bool.and_eq_true, decide_eq_true_eq, bne_iff_ne] at h
    obtain ⟨⟨⟨hl, hlt⟩, hne⟩, hr⟩ := h
    simp only [Memory.set]
    by_cases h1 : a < c
    · by_cases hb : b = resetByte a
      · simp only [h1, if_pos, hb, Memory.get]
        rw [if_neg (by omega), Memory.get_below rest _ hr a (by omega)]
      · simp [h1, hb, Memory.get]
    · by_cases h2 : a = c
      · subst h2
        by_cases hb : b = resetByte a
        · simp only [hb, lt_irrefl, if_false, if_true]
          exact Memory.get_below rest _ hr a (by omega)
        · simp [hb, Memory.get]
      · simp only [h1, h2, if_false, Memory.get]
        rw [if_neg (fun e => h2 e.symm)]
        exact ih _ hr

theorem Memory.get_set_other (m : Memory) (a k : Nat) (b : Byte) (hk : k ≠ a) (low : Nat)
    (h : Memory.wfFrom low m = true) : Memory.get (Memory.set m a b) k = Memory.get m k := by
  induction m generalizing low with
  | nil => by_cases hb : b = resetByte a <;> simp [Memory.set, Memory.get, hb, hk.symm]
  | cons p rest ih =>
    obtain ⟨c, d⟩ := p
    simp only [Memory.wfFrom, Bool.and_eq_true, decide_eq_true_eq, bne_iff_ne] at h
    obtain ⟨⟨⟨hl, hlt⟩, hne⟩, hr⟩ := h
    simp only [Memory.set]
    by_cases h1 : a < c
    · by_cases hb : b = resetByte a <;> simp [h1, hb, Memory.get, hk.symm]
    · by_cases h2 : a = c
      · subst h2
        by_cases hb : b = resetByte a
        · simp [hb, Memory.get, hk.symm]
        · simp [hb, Memory.get, hk.symm]
      · simp only [h1, h2, if_false, Memory.get]
        rw [ih _ hr]

/-! ### The canonical form -/

theorem Memory.wfFrom_mono {m : Memory} {low low' : Nat} (hl : low' ≤ low) (h : Memory.wfFrom low m = true) :
    Memory.wfFrom low' m = true := by
  cases m with
  | nil => rfl
  | cons p rest =>
    simp only [Memory.wfFrom, Bool.and_eq_true, decide_eq_true_eq] at h ⊢
    exact ⟨⟨⟨hl.trans h.1.1.1, h.1.1.2⟩, h.1.2⟩, h.2⟩

theorem Memory.wfFrom_set (m : Memory) (a : Nat) (b : Byte) (ha : a < memSize) (low : Nat) (hla : low ≤ a)
    (h : Memory.wfFrom low m = true) : Memory.wfFrom low (Memory.set m a b) = true := by
  induction m generalizing low with
  | nil => by_cases hb : b = resetByte a <;> simp [Memory.set, Memory.wfFrom, hb, hla, ha]
  | cons p rest ih =>
    obtain ⟨c, d⟩ := p
    have h0 := h
    simp only [Memory.wfFrom, Bool.and_eq_true, decide_eq_true_eq, bne_iff_ne] at h
    obtain ⟨⟨⟨hl, hlt⟩, hne⟩, hr⟩ := h
    simp only [Memory.set]
    by_cases h1 : a < c
    · by_cases hb : b = resetByte a
      · simpa [h1, hb] using h0
      · simp [h1, hb, Memory.wfFrom, hla, ha, hlt, hne, hr, Nat.succ_le_of_lt h1]
    · by_cases h2 : a = c
      · subst h2
        by_cases hb : b = resetByte a
        · simp only [hb, lt_irrefl, if_false, if_true]
          exact Memory.wfFrom_mono (by omega) hr
        · simp [hb, Memory.wfFrom, hla, ha, hr]
      · simp only [h1, h2, if_false, Memory.wfFrom, Bool.and_eq_true, decide_eq_true_eq, bne_iff_ne]
        exact ⟨⟨⟨hl, hlt⟩, hne⟩, ih _ (by omega) hr⟩

/-- Every memory operation keeps the canonical form: the one operation that changes memory does. -/
theorem Memory.wf_set (m : Memory) (a : Nat) (b : Byte) (ha : a < memSize) (h : Memory.wf m = true) :
    Memory.wf (Memory.set m a b) = true :=
  Memory.wfFrom_set m a b ha 0 (Nat.zero_le _) h

theorem Memory.wf_reset : Memory.wf State.reset.mem = true := rfl

theorem State.writeByte_wf (s : State) (a : Nat) (b : Byte) (h : Memory.wf s.mem = true) :
    Memory.wf (s.writeByte a b).mem = true :=
  Memory.wf_set _ _ _ (Nat.mod_lt _ (by decide)) h

theorem State.writeBytes_wf (s : State) (a : Nat) (l : List Byte) (h : Memory.wf s.mem = true) :
    Memory.wf (s.writeBytes a l).mem = true := by
  induction l generalizing s a with
  | nil => exact h
  | cons b rest ih => exact ih _ _ (s.writeByte_wf a b h)

theorem State.storeRegs_wf (s : State) (n : Nat) (h : Memory.wf s.mem = true) :
    Memory.wf (s.storeRegs n).mem = true := by
  induction n with
  | zero => exact h
  | succ k ih => exact State.writeByte_wf _ _ _ ih

/-! ### Reads through the state (R62, R63, R67) -/

/-- A byte reads as written at every address of the same cell, and every other cell reads as before. -/
theorem State.readByte_writeByte (s : State) (a k : Nat) (b : Byte) (h : Memory.wf s.mem = true) :
    (s.writeByte a b).readByte k = if k % memSize = a % memSize then b else s.readByte k := by
  simp only [State.readByte, State.writeByte_mem]
  split
  · next e => rw [e, Memory.get_set_self _ _ _ _ h]
  · next e => rw [Memory.get_set_other _ _ _ _ e _ h]

end Sys2Proof.Machine
end

