-- ==== Sys2Proof/Laws/Operations.lean ====
section
/-! SUPPORT. One lemma per shared operation that says everything it can do; later proofs cite these and do not unfold. -/

namespace Sys2Proof.Machine

/-! ### Operands and results -/

/-- A skip moves the pc by 2 or leaves the state alone (R150). -/
theorem State.skipIf_cases (s : State) (c : Bool) :
    c = true ∧ s.skipIf c = s.setPc (s.pc.toNat + 2) ∨ c = false ∧ s.skipIf c = s := by
  cases c <;> simp [State.skipIf]

@[simp] theorem State.skipIf_true (s : State) : s.skipIf true = s.setPc (s.pc.toNat + 2) := rfl
@[simp] theorem State.skipIf_false (s : State) : s.skipIf false = s := rfl

/-- An ALU instruction without flag is one register write (R172 to R175). -/
theorem State.aluPlain_eq (s : State) (x y : Reg) (f : Byte → Byte → Byte) :
    s.aluPlain x y f = s.writeV x (f (s.readV x) (s.readV y)) := rfl

/-- An ALU instruction with a flag is two register writes, the second reading the registers after the first (R171). -/
theorem State.aluFlag_eq (s : State) (x y : Reg) (flag f : Byte → Byte → Byte) :
    s.aluFlag x y flag f =
      let s1 := s.writeV vf (flag (s.readV x) (s.readV y))
      s1.writeV x (f (s1.readV x) (s1.readV y)) := rfl

/-! ### The call stack -/

/-- A push fails with 16 entries and otherwise adds one (R140). -/
theorem State.push_cases (s : State) (a : Word) :
    s.sp.val = 16 ∧ s.push a = none ∨
    ∃ h : s.sp.val < 16, s.push a = some { s with stack := s.stack.set s.sp.val a h, sp := ⟨s.sp.val + 1, by omega⟩ } := by
  by_cases h : s.sp.val < 16
  · exact .inr ⟨h, by simp [State.push, h]⟩
  · exact .inl ⟨by omega, by simp [State.push, h]⟩

/-- A pop fails with no entry and otherwise removes the top one (R141). -/
theorem State.pop_cases (s : State) :
    s.sp.val = 0 ∧ s.pop = none ∨
    ∃ h : 0 < s.sp.val,
      s.pop = some (s.stack[s.sp.val - 1]'(by omega), { s with sp := ⟨s.sp.val - 1, by omega⟩ }) := by
  by_cases h : 0 < s.sp.val
  · exact .inr ⟨h, by simp [State.pop, h]⟩
  · exact .inl ⟨by omega, by simp [State.pop, h]⟩

/-! ### Multi-byte transfers -/

/-- The stores of `Fx55` change memory only. -/
theorem State.storeRegs_eq (s : State) (n : Nat) : s.storeRegs n = { s with mem := (s.storeRegs n).mem } := by
  induction n with
  | zero => rfl
  | succ k ih => simp only [State.storeRegs]; rw [ih]; rfl

/-- The loads of `Fx65` change general registers only. -/
theorem State.loadRegs_eq (s : State) (n : Nat) : s.loadRegs n = { s with v := (s.loadRegs n).v } := by
  induction n with
  | zero => rfl
  | succ k ih => simp only [State.loadRegs]; rw [ih]; rfl

/-- The stores of a list of bytes change memory only. -/
theorem State.writeBytes_eq (s : State) (a : Nat) (l : List Byte) :
    s.writeBytes a l = { s with mem := (s.writeBytes a l).mem } := by
  induction l generalizing s a with
  | nil => rfl
  | cons b rest ih => simp only [State.writeBytes]; rw [ih]; rfl

/-- After the first `n` loads the registers below `n` hold their bytes and the others are as before (R195). -/
theorem State.readV_loadRegs (s : State) (n : Nat) (hn : n ≤ 16) (r : Reg) :
    (s.loadRegs n).readV r = if r.val < n then s.readByte (s.ea r.val) else s.readV r := by
  induction n with
  | zero => simp [State.loadRegs]
  | succ k ih =>
    simp only [State.loadRegs, State.readV_writeV]
    have hk : (regAt k).val = k := Nat.mod_eq_of_lt (show k < 16 by omega)
    by_cases h : r = regAt k
    · have : r.val = k := by rw [h, hk]
      simp [h, hk]
    · have hne : r.val ≠ k := fun e => h (Fin.ext (by rw [e, hk]))
      simp only [h, if_false, ih (by omega)]
      by_cases h1 : r.val < k
      · simp [h1, Nat.lt_succ_of_lt h1]
      · simp [h1, show ¬ r.val < k + 1 by omega]

/-! ### The draw -/

/-- Drawing columns keeps the display's size and its canonical form. -/
theorem drawColumns_wf (row : Byte) (vx y n : Nat) (acc : Display × Bool) (h : acc.1.wf = true) :
    (drawColumns row vx y n acc).1.wf = true := by
  induction n with
  | zero => exact h
  | succ c ih =>
    simp only [drawColumns]
    split
    · exact Display.wf_toggle _ ih _ _
    · exact ih

theorem State.drawRows_wf (s : State) (vx vy n : Nat) (h : s.display.wf = true) : (s.drawRows vx vy n).1.wf = true := by
  induction n with
  | zero => exact h
  | succ r ih => exact drawColumns_wf _ _ _ _ _ ih

/-! ### Commands -/

/-- A tick of a machine that is not Halted (R245). -/
theorem State.tick_running (s : State) (h : s.fault = none) :
    s.tick = { s with dt := countDown s.dt, st := countDown s.st, tone := toneLatch (toneCheck (countDown s.st)) } := by
  simp [State.tick, State.halted, h]

/-- A tick of a Halted machine (R250). -/
theorem State.tick_halted (s : State) (h : s.fault ≠ none) : s.tick = s := by
  simp [State.tick, State.halted, Option.isSome_iff_ne_none, h]

/-- A timer counts down to 0 and stays there (R32, R245). -/
theorem countDown_toNat (t : Byte) : (countDown t).toNat = t.toNat - 1 := by
  by_cases h : 0 < t.toNat
  · have h1 : (1 : Byte) ≤ t := BitVec.le_def.mpr h
    rw [countDown, if_pos h, BitVec.toNat_sub_of_le h1]
    rfl
  · rw [countDown, if_neg h]
    omega

/-- A key-down resolves a wait and does nothing else (R227). -/
theorem State.keyDown_cases (s : State) (k : Fin 16) :
    s.keyDown k = s ∨
    ∃ r, s.fault = none ∧ s.wait = some r ∧ s.keyDown k = (s.writeV r (BitVec.ofNat 8 k.val)).setWait none := by
  cases hf : s.fault with
  | some e => simp [State.keyDown, State.halted, hf]
  | none =>
    cases hw : s.wait with
    | none => simp [State.keyDown, hw]
    | some r => exact .inr ⟨r, rfl, rfl, by simp [State.keyDown, State.halted, hf, hw]⟩

/-- A load is refused outside boot, rejected for its length, or stores the bytes (R294, R296). -/
theorem loadProgram_cases (l : List Byte) (s : State) :
    s.loadable = false ∧ loadProgram l s = .refused .loadOutsideBoot ∨
    s.loadable = true ∧ (l.length < 1 ∨ programMax < l.length) ∧
      loadProgram l s = .next { s with fault := some .invalidProgram, loadable := false } ∨
    s.loadable = true ∧ 1 ≤ l.length ∧ l.length ≤ programMax ∧
      loadProgram l s = .next { s.writeBytes programBase l with loadable := false } := by
  cases hl : s.loadable with
  | false => simp [loadProgram, hl]
  | true =>
    by_cases hb : l.length < 1 ∨ programMax < l.length
    · exact .inr (.inl ⟨rfl, hb, by rw [loadProgram, hl, if_neg (by simp), if_pos hb]⟩)
    · exact .inr (.inr ⟨rfl, by omega, by omega, by rw [loadProgram, hl, if_neg (by simp), if_neg hb]⟩)

end Sys2Proof.Machine
end

