-- ==== Sys2Proof/Laws/Machine.lean ====
section
/-! SUPPORT. What exec and step can do: every instruction ends in a next state and leaves the environment's commands, the
keys, the tone and the boot flag alone; and every way a step can end. -/

namespace Sys2Proof.Machine

/-- The fields no instruction changes: the tone changes only at a tick (R37), the keys are inputs (R41), and the boot flag
and the pending commands are not the instruction's. -/
structure SameOutside (s t : State) : Prop where
  tone : t.tone = s.tone
  keys : t.keys = s.keys
  loadable : t.loadable = s.loadable
  pending : t.pending = s.pending

/-- A return pops into the pc or raises StackUnderflow (R144). -/
theorem execRet_cases (s : State) :
    s.sp.val = 0 ∧ exec .ret s = .next (s.raise .stackUnderflow (encode .ret)) ∨
    ∃ h : 0 < s.sp.val, exec .ret s =
      .next (State.setPc { s with sp := ⟨s.sp.val - 1, by omega⟩ } (s.stack[s.sp.val - 1]'(by omega)).toNat) := by
  obtain ⟨h0, h⟩ | ⟨hp, h⟩ := s.pop_cases
  · exact .inl ⟨h0, by simp only [exec, execRet, h]⟩
  · exact .inr ⟨hp, by simp only [exec, execRet, h]⟩

/-- A call pushes the pc and jumps or raises StackOverflow (R143). -/
theorem execCall_cases (nnn : Word) (s : State) :
    s.sp.val = 16 ∧ exec (.call nnn) s = .next (s.raise .stackOverflow (encode (.call nnn))) ∨
    ∃ h : s.sp.val < 16, exec (.call nnn) s =
      .next (State.setPc { s with stack := s.stack.set s.sp.val s.pc h, sp := ⟨s.sp.val + 1, by omega⟩ } nnn.toNat) := by
  obtain ⟨h0, h⟩ | ⟨hp, h⟩ := s.push_cases s.pc
  · exact .inl ⟨h0, by simp only [exec, execCall, h]⟩
  · exact .inr ⟨hp, by simp only [exec, execCall, h]⟩

/-- Every instruction ends in a next state (R124, R131), and leaves those fields as they were. -/
theorem exec_next (i : Instr) (s : State) : ∃ t, exec i s = .next t ∧ SameOutside s t := by
  cases i with
  | ret => obtain ⟨-, h⟩ | ⟨hp, h⟩ := execRet_cases s <;> exact ⟨_, h, rfl, rfl, rfl, rfl⟩
  | call nnn => obtain ⟨-, h⟩ | ⟨hp, h⟩ := execCall_cases nnn s <;> exact ⟨_, h, rfl, rfl, rfl, rfl⟩
  | seImm x kk => exact ⟨_, rfl, by obtain ⟨-, h⟩ | ⟨-, h⟩ := s.skipIf_cases (s.readV x == kk) <;> rw [h] <;> exact ⟨rfl, rfl, rfl, rfl⟩⟩
  | sneImm x kk => exact ⟨_, rfl, by obtain ⟨-, h⟩ | ⟨-, h⟩ := s.skipIf_cases (s.readV x != kk) <;> rw [h] <;> exact ⟨rfl, rfl, rfl, rfl⟩⟩
  | seReg x y => exact ⟨_, rfl, by obtain ⟨-, h⟩ | ⟨-, h⟩ := s.skipIf_cases (s.readV x == s.readV y) <;> rw [h] <;> exact ⟨rfl, rfl, rfl, rfl⟩⟩
  | sneReg x y => exact ⟨_, rfl, by obtain ⟨-, h⟩ | ⟨-, h⟩ := s.skipIf_cases (s.readV x != s.readV y) <;> rw [h] <;> exact ⟨rfl, rfl, rfl, rfl⟩⟩
  | skp x => exact ⟨_, rfl, by obtain ⟨-, h⟩ | ⟨-, h⟩ := s.skipIf_cases (s.isPressed (s.readV x)) <;> rw [h] <;> exact ⟨rfl, rfl, rfl, rfl⟩⟩
  | sknp x => exact ⟨_, rfl, by obtain ⟨-, h⟩ | ⟨-, h⟩ := s.skipIf_cases (!s.isPressed (s.readV x)) <;> rw [h] <;> exact ⟨rfl, rfl, rfl, rfl⟩⟩
  | stRegs x => exact ⟨_, rfl, by rw [State.storeRegs_eq]; exact ⟨rfl, rfl, rfl, rfl⟩⟩
  | ldRegs x => exact ⟨_, rfl, by rw [State.loadRegs_eq]; exact ⟨rfl, rfl, rfl, rfl⟩⟩
  | cls | jp _ | ldImm _ _ | addImm _ _ | ldReg _ _ | orReg _ _ | andReg _ _ | xorReg _ _ | addReg _ _ | subReg _ _
  | shr _ _ | subnReg _ _ | shl _ _ | ldI _ | jpV0 _ | rnd _ _ | drw _ _ _ | ldVxDt _ | ldVxK _ | ldDtVx _ | ldStVx _
  | addI _ | ldF _ | ldB _ => exact ⟨_, rfl, rfl, rfl, rfl, rfl⟩

/-- A `step` command does one of four things (R120, R123): nothing when Halted, nothing when waiting, the one instruction
the word is, or the error for a word that is none. -/
theorem stepCommand_cases (s : State) :
    s.fault ≠ none ∧ stepCommand s = .next s ∨
    s.fault = none ∧ s.wait ≠ none ∧ stepCommand s = .next s ∨
    (∃ i, s.fault = none ∧ s.wait = none ∧ decodeWord s.fetchWord = .instr i ∧ stepCommand s = exec i s.advance) ∨
    (∃ e, s.fault = none ∧ s.wait = none ∧ decodeWord s.fetchWord = .rejected e ∧
      stepCommand s = .next (s.advance.raise .unknownOpcode s.fetchWord)) := by
  cases hf : s.fault with
  | some e => exact .inl ⟨by simp, by simp [stepCommand, State.halted, hf]⟩
  | none =>
    cases hw : s.wait with
    | some r => exact .inr (.inl ⟨rfl, by simp, by simp [stepCommand, State.halted, State.waiting, hf, hw]⟩)
    | none =>
      cases hd : decodeWord s.fetchWord with
      | instr i =>
        exact .inr (.inr (.inl ⟨i, rfl, rfl, rfl, by simp [stepCommand, State.halted, State.waiting, hf, hw, dispatchWord, hd]⟩))
      | rejected e =>
        exact .inr (.inr (.inr ⟨e, rfl, rfl, rfl, by simp [stepCommand, State.halted, State.waiting, hf, hw, dispatchWord, hd]⟩))

/-- A `step` command always ends in a next state, and leaves the environment's commands alone (R124). -/
theorem stepCommand_next (s : State) : ∃ t, stepCommand s = .next t ∧ t.pending = s.pending := by
  obtain ⟨-, h⟩ | ⟨-, -, h⟩ | ⟨i, -, -, -, h⟩ | ⟨e, -, -, -, h⟩ := stepCommand_cases s
  · exact ⟨s, h, rfl⟩
  · exact ⟨s, h, rfl⟩
  · obtain ⟨t, ht, hs⟩ := exec_next i s.advance
    exact ⟨t, h.trans ht, hs.pending⟩
  · exact ⟨_, h, rfl⟩

/-- The machine moves by its oldest pending command, or by `step` where there is none. -/
theorem step_nil {s : State} (h : s.pending = []) : step s = stepCommand s := by
  simp [step, advanceMachine, h]

theorem step_cons {s : State} {c : Command} {rest : List Command} (h : s.pending = c :: rest) :
    step s = issue c { s with pending := rest } := by
  simp [step, advanceMachine, h]

end Sys2Proof.Machine
end

