-- ==== Sys2Proof/Laws/PerInstr.lean ====
section
/-! SUPPORT. For every instruction: its word selects its row of the opcode map, `w & mask = match` (R96). -/

namespace Sys2Proof.Laws

/-! ### Masks of concatenated fields -/

theorem append_and_append {m n : Nat} (a c : BitVec m) (b d : BitVec n) :
    (a ++ b) &&& (c ++ d) = (a &&& c) ++ (b &&& d) := by
  ext i hi
  simp only [BitVec.getElem_and, BitVec.getElem_append]
  split <;> rfl

theorem and_ones4 : ∀ f : BitVec 4, f &&& 0xF#4 = f := by decide

/-- The mask of the format ADDR keeps the family. -/
theorem encodeAddr_mask (f : BitVec 4) (a : Word) : encodeAddr f a &&& 0xF000#16 = encodeAddr f 0 := by
  have h : (0xF000#16 : BitVec (4 + 12)) = 0xF#4 ++ 0#12 := rfl
  exact (congrArg ((f ++ a.setWidth 12) &&& ·) h).trans
    ((append_and_append _ _ _ _).trans (by rw [and_ones4, BitVec.and_zero]; rfl))

/-- The mask of the format RIMM keeps the family. -/
theorem encodeRegByte_mask_family (f : BitVec 4) (x : Reg) (kk : Byte) :
    encodeRegByte f x kk &&& 0xF000#16 = encodeRegByte f 0 0 := by
  have h : (0xF000#16 : BitVec (4 + 4 + 8)) = 0xF#4 ++ 0#4 ++ 0#8 := rfl
  exact (congrArg ((f ++ bitsOfReg x ++ kk) &&& ·) h).trans
    ((append_and_append _ _ _ _).trans (by rw [append_and_append, and_ones4, BitVec.and_zero, BitVec.and_zero]; rfl))

/-- The mask of the format RFUN keeps the family and `kk`. -/
theorem encodeRegByte_mask (f : BitVec 4) (x : Reg) (kk : Byte) :
    encodeRegByte f x kk &&& 0xF0FF#16 = encodeRegByte f 0 kk := by
  have h : (0xF0FF#16 : BitVec (4 + 4 + 8)) = 0xF#4 ++ 0#4 ++ 0xFF#8 := rfl
  have hk : kk &&& 0xFF#8 = kk := BitVec.and_allOnes
  exact (congrArg ((f ++ bitsOfReg x ++ kk) &&& ·) h).trans
    ((append_and_append _ _ _ _).trans (by rw [append_and_append, and_ones4, BitVec.and_zero, hk]; rfl))

/-- The mask of the format RR keeps the family and `n`. -/
theorem encodeRegReg_mask (f : BitVec 4) (x y : Reg) (n : BitVec 4) :
    encodeRegReg f x y n &&& 0xF00F#16 = encodeRegReg f 0 0 n := by
  have h : (0xF00F#16 : BitVec (4 + 4 + 4 + 4)) = 0xF#4 ++ 0#4 ++ 0#4 ++ 0xF#4 := rfl
  exact (congrArg ((f ++ bitsOfReg x ++ bitsOfReg y ++ n : BitVec (4 + 4 + 4 + 4)) &&& ·) h).trans
    ((append_and_append _ _ _ _).trans
      (by rw [append_and_append, append_and_append, and_ones4, and_ones4, BitVec.and_zero, BitVec.and_zero]; rfl))

/-- The mask of the format DRAW keeps the family. -/
theorem encodeRegReg_mask_family (f : BitVec 4) (x y : Reg) (n : BitVec 4) :
    encodeRegReg f x y n &&& 0xF000#16 = encodeRegReg f 0 0 0 := by
  have h : (0xF000#16 : BitVec (4 + 4 + 4 + 4)) = 0xF#4 ++ 0#4 ++ 0#4 ++ 0#4 := rfl
  exact (congrArg ((f ++ bitsOfReg x ++ bitsOfReg y ++ n : BitVec (4 + 4 + 4 + 4)) &&& ·) h).trans
    ((append_and_append _ _ _ _).trans
      (by rw [append_and_append, append_and_append, and_ones4, BitVec.and_zero, BitVec.and_zero, BitVec.and_zero]; rfl))

namespace OpcodeRow

/-- `match` and `mask` of each row of R96. -/
def matchAndMask (i : Instr) : Word × Word :=
  match i with
  | .cls => (0x00E0, 0xFFFF)
  | .ret => (0x00EE, 0xFFFF)
  | .jp _ => (0x1000, 0xF000)
  | .call _ => (0x2000, 0xF000)
  | .seImm _ _ => (0x3000, 0xF000)
  | .sneImm _ _ => (0x4000, 0xF000)
  | .seReg _ _ => (0x5000, 0xF00F)
  | .ldImm _ _ => (0x6000, 0xF000)
  | .addImm _ _ => (0x7000, 0xF000)
  | .ldReg _ _ => (0x8000, 0xF00F)
  | .orReg _ _ => (0x8001, 0xF00F)
  | .andReg _ _ => (0x8002, 0xF00F)
  | .xorReg _ _ => (0x8003, 0xF00F)
  | .addReg _ _ => (0x8004, 0xF00F)
  | .subReg _ _ => (0x8005, 0xF00F)
  | .shr _ _ => (0x8006, 0xF00F)
  | .subnReg _ _ => (0x8007, 0xF00F)
  | .shl _ _ => (0x800E, 0xF00F)
  | .sneReg _ _ => (0x9000, 0xF00F)
  | .ldI _ => (0xA000, 0xF000)
  | .jpV0 _ => (0xB000, 0xF000)
  | .rnd _ _ => (0xC000, 0xF000)
  | .drw _ _ _ => (0xD000, 0xF000)
  | .skp _ => (0xE09E, 0xF0FF)
  | .sknp _ => (0xE0A1, 0xF0FF)
  | .ldVxDt _ => (0xF007, 0xF0FF)
  | .ldVxK _ => (0xF00A, 0xF0FF)
  | .ldDtVx _ => (0xF015, 0xF0FF)
  | .ldStVx _ => (0xF018, 0xF0FF)
  | .addI _ => (0xF01E, 0xF0FF)
  | .ldF _ => (0xF029, 0xF0FF)
  | .ldB _ => (0xF033, 0xF0FF)
  | .stRegs _ => (0xF055, 0xF0FF)
  | .ldRegs _ => (0xF065, 0xF0FF)

/-- The word of the instruction selects its row (R96). -/
def Statement (i : Instr) : Prop := encode i &&& (matchAndMask i).2 = (matchAndMask i).1

theorem cls : Statement .cls := by unfold Statement; decide
theorem ret : Statement .ret := by unfold Statement; decide
theorem jp (nnn : Word) : Statement (.jp nnn) := (encodeAddr_mask _ _).trans rfl
theorem call (nnn : Word) : Statement (.call nnn) := (encodeAddr_mask _ _).trans rfl
theorem seImm (x : Reg) (kk : Byte) : Statement (.seImm x kk) := (encodeRegByte_mask_family _ _ _).trans rfl
theorem sneImm (x : Reg) (kk : Byte) : Statement (.sneImm x kk) := (encodeRegByte_mask_family _ _ _).trans rfl
theorem seReg (x : Reg) (y : Reg) : Statement (.seReg x y) := (encodeRegReg_mask _ _ _ _).trans rfl
theorem ldImm (x : Reg) (kk : Byte) : Statement (.ldImm x kk) := (encodeRegByte_mask_family _ _ _).trans rfl
theorem addImm (x : Reg) (kk : Byte) : Statement (.addImm x kk) := (encodeRegByte_mask_family _ _ _).trans rfl
theorem ldReg (x : Reg) (y : Reg) : Statement (.ldReg x y) := (encodeRegReg_mask _ _ _ _).trans rfl
theorem orReg (x : Reg) (y : Reg) : Statement (.orReg x y) := (encodeRegReg_mask _ _ _ _).trans rfl
theorem andReg (x : Reg) (y : Reg) : Statement (.andReg x y) := (encodeRegReg_mask _ _ _ _).trans rfl
theorem xorReg (x : Reg) (y : Reg) : Statement (.xorReg x y) := (encodeRegReg_mask _ _ _ _).trans rfl
theorem addReg (x : Reg) (y : Reg) : Statement (.addReg x y) := (encodeRegReg_mask _ _ _ _).trans rfl
theorem subReg (x : Reg) (y : Reg) : Statement (.subReg x y) := (encodeRegReg_mask _ _ _ _).trans rfl
theorem shr (x : Reg) (y : Reg) : Statement (.shr x y) := (encodeRegReg_mask _ _ _ _).trans rfl
theorem subnReg (x : Reg) (y : Reg) : Statement (.subnReg x y) := (encodeRegReg_mask _ _ _ _).trans rfl
theorem shl (x : Reg) (y : Reg) : Statement (.shl x y) := (encodeRegReg_mask _ _ _ _).trans rfl
theorem sneReg (x : Reg) (y : Reg) : Statement (.sneReg x y) := (encodeRegReg_mask _ _ _ _).trans rfl
theorem ldI (nnn : Word) : Statement (.ldI nnn) := (encodeAddr_mask _ _).trans rfl
theorem jpV0 (nnn : Word) : Statement (.jpV0 nnn) := (encodeAddr_mask _ _).trans rfl
theorem rnd (x : Reg) (kk : Byte) : Statement (.rnd x kk) := (encodeRegByte_mask_family _ _ _).trans rfl
theorem drw (x : Reg) (y : Reg) (n : Fin 16) : Statement (.drw x y n) := (encodeRegReg_mask_family _ _ _ _).trans rfl
theorem skp (x : Reg) : Statement (.skp x) := (encodeRegByte_mask _ _ _).trans rfl
theorem sknp (x : Reg) : Statement (.sknp x) := (encodeRegByte_mask _ _ _).trans rfl
theorem ldVxDt (x : Reg) : Statement (.ldVxDt x) := (encodeRegByte_mask _ _ _).trans rfl
theorem ldVxK (x : Reg) : Statement (.ldVxK x) := (encodeRegByte_mask _ _ _).trans rfl
theorem ldDtVx (x : Reg) : Statement (.ldDtVx x) := (encodeRegByte_mask _ _ _).trans rfl
theorem ldStVx (x : Reg) : Statement (.ldStVx x) := (encodeRegByte_mask _ _ _).trans rfl
theorem addI (x : Reg) : Statement (.addI x) := (encodeRegByte_mask _ _ _).trans rfl
theorem ldF (x : Reg) : Statement (.ldF x) := (encodeRegByte_mask _ _ _).trans rfl
theorem ldB (x : Reg) : Statement (.ldB x) := (encodeRegByte_mask _ _ _).trans rfl
theorem stRegs (x : Reg) : Statement (.stRegs x) := (encodeRegByte_mask _ _ _).trans rfl
theorem ldRegs (x : Reg) : Statement (.ldRegs x) := (encodeRegByte_mask _ _ _).trans rfl

end OpcodeRow

end Sys2Proof.Laws
end

