-- ==== Sys2Proof/Tests/Slice0.lean ====
section
/-! SUPPORT. The model's own tests: ill-formed terms refused, words written out from the opcode map, the spec's worked
vectors (95_test_vectors.md, named in each comment), and for every statement with hypotheses a state that meets them. -/

open Sys2Proof Sys2Proof.Machine Sys2Proof.Statements

namespace Sys2Proof.Tests

/-! ### Helpers -/

/-- The state after one step that runs the word `w`. -/
def after (w : Nat) (s : State) : Option State :=
  match step (s.withFetchWord 16 w) with
  | .next t => some t
  | .fault _ => none
  | .refused _ => none

/-- The state after one command. -/
def afterCommand (c : Command) (s : State) : Option State :=
  match issue c s with
  | .next t => some t
  | .fault _ => none
  | .refused _ => none

/-- Reset, with some registers set. -/
def withV (l : List (Reg × Byte)) : State := l.foldl (fun s p => s.writeV p.1 p.2) State.reset

/-- Registers `rs` after the word `w` runs on reset with registers set. -/
def regs (w : Nat) (l : List (Reg × Byte)) (rs : List Reg) : Option (List Byte) :=
  (after w (withV l)).map fun t => rs.map t.readV

/-- The pc after the word `w` runs on reset with registers set. -/
def pcOf (w : Nat) (l : List (Reg × Byte)) : Option Nat := (after w (withV l)).map fun t => t.pc.toNat

/-- I after the word `w` runs on reset with I and registers set. -/
def indexOf (w : Nat) (i : Word) (l : List (Reg × Byte)) : Option Nat :=
  (after w { withV l with i := i }).map fun t => t.i.toNat

/-- The bytes at `addrs` after the word `w` runs on reset with I and registers set. -/
def bytesOf (w : Nat) (i : Word) (l : List (Reg × Byte)) (addrs : List Nat) : Option (List Byte) :=
  (after w { withV l with i := i }).map fun t => addrs.map t.readByte

/-- Only key `k` is down. -/
def oneKey (k : Fin 16) : Vector Bool 16 := (Vector.replicate 16 false).set k.val true

def haltedState : State := State.reset.raise .unknownOpcode 0x0000
def waitingState : State := State.reset.setWait (some 5)
def fullStack : State := { State.reset with sp := 16 }

/-! ### WellFormed refuses what the encoding does not admit (R94) -/

theorem test_jp_refused : wellFormed (.jp 0x1000) = false := by decide
theorem test_call_refused : wellFormed (.call 0x1000) = false := by decide
theorem test_ldI_refused : wellFormed (.ldI 0xFFFF) = false := by decide
theorem test_jpV0_refused : wellFormed (.jpV0 0x8000) = false := by decide
theorem test_jp_top_accepted : wellFormed (.jp 0x0FFF) = true := by decide

/-! ### Decoding: the words are written out from the patterns of R96 -/

theorem test_decode_family_0 :
    decodeTableWord 16 0x00E0 = some .cls ∧ decodeTableWord 16 0x00EE = some .ret ∧ decodeTableWord 16 0x0000 = none ∧
    decodeTableWord 16 0x00E1 = none ∧ decodeTableWord 16 0x0FFF = none := by decide

theorem test_decode_addresses :
    decodeTableWord 16 0x1ABC = some (.jp 0xABC) ∧ decodeTableWord 16 0x2300 = some (.call 0x300) ∧
    decodeTableWord 16 0xA2F0 = some (.ldI 0x2F0) ∧ decodeTableWord 16 0xBFFF = some (.jpV0 0xFFF) := by decide

theorem test_decode_immediates :
    decodeTableWord 16 0x332A = some (.seImm 3 0x2A) ∧ decodeTableWord 16 0x4A42 = some (.sneImm 0xA 0x42) ∧
    decodeTableWord 16 0x6A7F = some (.ldImm 0xA 0x7F) ∧ decodeTableWord 16 0x7102 = some (.addImm 1 0x02) ∧
    decodeTableWord 16 0xC20F = some (.rnd 2 0x0F) := by decide

theorem test_decode_register_skips :
    decodeTableWord 16 0x5120 = some (.seReg 1 2) ∧ decodeTableWord 16 0x9AB0 = some (.sneReg 0xA 0xB) ∧
    decodeTableWord 16 0x5121 = none ∧ decodeTableWord 16 0x9AB1 = none := by decide

theorem test_decode_alu :
    decodeTableWord 16 0x8120 = some (.ldReg 1 2) ∧ decodeTableWord 16 0x8121 = some (.orReg 1 2) ∧
    decodeTableWord 16 0x8122 = some (.andReg 1 2) ∧ decodeTableWord 16 0x8123 = some (.xorReg 1 2) ∧
    decodeTableWord 16 0x8124 = some (.addReg 1 2) ∧ decodeTableWord 16 0x8125 = some (.subReg 1 2) ∧
    decodeTableWord 16 0x81A6 = some (.shr 1 0xA) ∧ decodeTableWord 16 0x8127 = some (.subnReg 1 2) ∧
    decodeTableWord 16 0x81FE = some (.shl 1 0xF) ∧ decodeTableWord 16 0x8128 = none ∧
    decodeTableWord 16 0x812F = none := by decide

theorem test_decode_draw : decodeTableWord 16 0xD123 = some (.drw 1 2 3) ∧
    decodeTableWord 16 0xDF0F = some (.drw 0xF 0 0xF) := by decide

theorem test_decode_keys : decodeTableWord 16 0xE49E = some (.skp 4) ∧ decodeTableWord 16 0xE4A1 = some (.sknp 4) ∧
    decodeTableWord 16 0xE49F = none ∧ decodeTableWord 16 0xE400 = none := by decide

theorem test_decode_family_F :
    decodeTableWord 16 0xF307 = some (.ldVxDt 3) ∧ decodeTableWord 16 0xF50A = some (.ldVxK 5) ∧
    decodeTableWord 16 0xF315 = some (.ldDtVx 3) ∧ decodeTableWord 16 0xF318 = some (.ldStVx 3) ∧
    decodeTableWord 16 0xF21E = some (.addI 2) ∧ decodeTableWord 16 0xF329 = some (.ldF 3) ∧
    decodeTableWord 16 0xF033 = some (.ldB 0) ∧ decodeTableWord 16 0xFF55 = some (.stRegs 0xF) ∧
    decodeTableWord 16 0xF265 = some (.ldRegs 2) ∧ decodeTableWord 16 0xF075 = none ∧
    decodeTableWord 16 0xFFFF = none := by decide

/-- R90, R64: two bytes, the high one first; the rest of the bytes is left. -/
theorem test_decode_bytes :
    decode [0xD1, 0x23, 0x55] = (.instr (.drw 1 2 3), [0x55]) ∧ decode [0xD1] = (.rejected .truncated, [0xD1]) ∧
    decode [0x01, 0x23] = (.rejected (.unknownOpcode 0x0123), []) := by decide

/-! ### Flow: vectors S4 and V1 -/

theorem test_jp : pcOf 0x1ABC [] = some 0xABC ∧ pcOf 0x1201 [] = some 0x201 := by decide
theorem test_call : (after 0x2300 { State.reset with pc := 0x204 }).map (fun t => (t.stack[0], t.sp, t.pc)) =
    some (0x0206, 1, 0x300) := by decide
theorem test_call_full : (after 0x2300 fullStack).map (fun t => (t.fault, t.faultOp, t.faultPc, t.pc, t.sp)) =
    some (some .stackOverflow, 0x2300, 0x200, 0x202, 16) := by decide
theorem test_ret : (after 0x00EE { State.reset with pc := 0x300, sp := 1, stack := State.reset.stack.set 0 0x0206 }).map
    (fun t => (t.sp, t.pc)) = some (0, 0x206) := by decide
theorem test_ret_empty : (after 0x00EE State.reset).map (fun t => (t.fault, t.faultOp, t.faultPc, t.pc, t.sp)) =
    some (some .stackUnderflow, 0x00EE, 0x200, 0x202, 0) := by decide
theorem test_jpV0 : pcOf 0xB300 [(0, 0x04)] = some 0x304 ∧ pcOf 0xB204 [(0, 0x06), (2, 0x55)] = some 0x20A := by decide
theorem test_jpV0_wraps : pcOf 0xBFFF [(0, 0xFF)] = some 0x0FE := by decide

/-! ### Skips: vectors S2 and V2 -/

theorem test_seImm : pcOf 0x3A42 [(10, 0x42)] = some 0x204 ∧ pcOf 0x3A42 [(10, 0x43)] = some 0x202 := by decide
theorem test_seImm_wraps : (after 0x3000 { State.reset with pc := 0xFFE }).map (fun t => t.pc) = some 0x002 := by decide
theorem test_sneImm : pcOf 0x4A42 [(10, 0x42)] = some 0x202 ∧ pcOf 0x4A42 [(10, 0x43)] = some 0x204 := by decide
theorem test_seReg : pcOf 0x5120 [(1, 7), (2, 7)] = some 0x204 ∧ pcOf 0x5120 [(1, 7), (2, 8)] = some 0x202 := by decide
theorem test_sneReg : pcOf 0x9120 [(1, 7), (2, 7)] = some 0x202 ∧ pcOf 0x9120 [(1, 7), (2, 8)] = some 0x204 := by decide

/-! ### Immediates: vectors S1 and V3 -/

theorem test_ldImm : regs 0x6A42 [] [10] = some [0x42] := by decide
theorem test_addImm : regs 0x7A01 [(10, 0xFF), (15, 0x07)] [10, 15] = some [0x00, 0x07] := by decide

/-! ### ALU: vectors S3 and V4; the second test of an instruction is a form with VF as an operand (R182) -/

theorem test_ldReg : regs 0x8120 [(1, 0x11), (2, 0x5C), (15, 0x77)] [1, 15] = some [0x5C, 0x77] := by decide
theorem test_orReg : regs 0x8121 [(1, 0xF0), (2, 0x3C), (15, 0x77)] [1, 15] = some [0xFC, 0x77] := by decide
theorem test_andReg : regs 0x8122 [(1, 0xF0), (2, 0x3C), (15, 0x77)] [1, 15] = some [0x30, 0x77] := by decide
theorem test_xorReg : regs 0x8123 [(1, 0xF0), (2, 0x3C), (15, 0x77)] [1, 15] = some [0xCC, 0x77] := by decide
theorem test_addReg : regs 0x8124 [(1, 0xFF), (2, 0x01)] [1, 15] = some [0x00, 0x01] := by decide
theorem test_addReg_vf : regs 0x8F14 [(15, 0xFF), (1, 0x02)] [15] = some [0x03] ∧
    regs 0x81F4 [(1, 0x10), (15, 0xF5)] [1, 15] = some [0x11, 0x01] := by decide
theorem test_subReg : regs 0x8125 [(1, 0x05), (2, 0x05), (15, 0x01)] [1, 15] = some [0x00, 0x00] ∧
    regs 0x8125 [(1, 0x0A), (2, 0x03)] [1, 15] = some [0x07, 0x01] := by decide
theorem test_subReg_vf : regs 0x8F15 [(15, 0x05), (1, 0x03)] [15] = some [0xFE] ∧
    regs 0x81F5 [(1, 0x05), (15, 0x03)] [1, 15] = some [0x04, 0x01] := by decide
theorem test_shr : regs 0x8126 [(1, 0x05), (2, 0xFF)] [1, 15] = some [0x02, 0x01] := by decide
theorem test_shr_vf : regs 0x8F26 [(15, 0xFF), (2, 0x01)] [15] = some [0x00] := by decide
theorem test_subnReg : regs 0x8127 [(1, 0x01), (2, 0x03)] [1, 15] = some [0x02, 0x01] ∧
    regs 0x8127 [(1, 0x05), (2, 0x05), (15, 0x01)] [1, 15] = some [0x00, 0x00] := by decide
theorem test_subnReg_vf : regs 0x81F7 [(1, 0x05), (15, 0x09)] [1, 15] = some [0xFC, 0x01] := by decide
theorem test_shl : regs 0x812E [(1, 0xC1), (2, 0x33)] [1, 15] = some [0x82, 0x80] := by decide
theorem test_shl_clear : regs 0x812E [(1, 0x7F), (15, 0x01)] [1, 15] = some [0xFE, 0x00] := by decide

/-! ### Index register and memory: vectors V5 -/

theorem test_ldI : indexOf 0xAFFF 0 [] = some 0xFFF := by decide
theorem test_addI : indexOf 0xF21E 0x300 [(2, 0x10)] = some 0x310 ∧ indexOf 0xF21E 0xFFF [(2, 0xFF)] = some 0x0FE := by
  decide
theorem test_ldF : indexOf 0xF329 0 [(3, 0x0F)] = some 0x04B ∧ indexOf 0xF329 0 [(3, 0xFF)] = some 0x4FB := by decide
theorem test_ldB : bytesOf 0xF033 0x300 [(0, 0xEA)] [0x300, 0x301, 0x302] = some [2, 3, 4] := by decide
theorem test_ldB_wraps : bytesOf 0xF033 0xFFE [(0, 0xFF)] [0xFFE, 0xFFF, 0x000] = some [2, 5, 5] := by decide
theorem test_stRegs : bytesOf 0xF255 0x400 [(0, 0x11), (1, 0x22), (2, 0x33), (3, 0x44)] [0x400, 0x401, 0x402, 0x403] =
    some [0x11, 0x22, 0x33, 0x00] := by decide
theorem test_stRegs_wraps : bytesOf 0xF155 0xFFF [(0, 0xAA), (1, 0xBB)] [0xFFF, 0x000] = some [0xAA, 0xBB] := by decide
theorem test_ldRegs : regs 0xF465 [(5, 0x99)] [0, 1, 2, 3, 4, 5] = some [0xF0, 0x90, 0x90, 0x90, 0xF0, 0x99] := by decide
theorem test_ldRegs_all : regs 0xFF65 [] (List.finRange 16) =
    some [0xF0, 0x90, 0x90, 0x90, 0xF0, 0x20, 0x60, 0x20, 0x20, 0x70, 0xF0, 0x10, 0xF0, 0x80, 0xF0, 0xF0] := by decide

/-! ### Display: vectors S7 and V6. A pixel (column, row) is cell 64 × row + column -/

theorem test_cls : (after 0x00E0 { State.reset with display := ⟨64, 32, [65]⟩ }).map (fun t => t.display.lit) = some [] := by
  decide
theorem test_drw : (after 0xD015 State.reset).map (fun t => (t.display.lit, t.readV 15)) =
    some ([0, 1, 2, 3, 64, 67, 128, 131, 192, 195, 256, 257, 258, 259], 0) := by decide
theorem test_drw_wraps_and_erases :
    (after 0xD012 { withV [(0, 0xFF), (1, 0xFF)] with display := ⟨64, 32, [63]⟩ }).map
      (fun t => (t.display.lit, t.readV 15)) = some ([2, 1984, 1985, 1986, 2047], 1) := by decide

/-! ### Keyboard: vectors S6 and V7 -/

theorem test_skp : (after 0xE49E { withV [(4, 0x0A)] with keys := oneKey 0xA }).map (fun t => t.pc) = some 0x204 ∧
    pcOf 0xE49E [(4, 0x0A)] = some 0x202 := by decide
theorem test_skp_no_such_key : (after 0xE49E { withV [(4, 0x1A)] with keys := oneKey 0xA }).map (fun t => t.pc) =
    some 0x202 := by decide
theorem test_sknp : (after 0xE4A1 { withV [(4, 0x0A)] with keys := oneKey 0xA }).map (fun t => t.pc) = some 0x202 ∧
    pcOf 0xE4A1 [(4, 0x1A)] = some 0x204 := by decide
theorem test_ldVxK : (after 0xF50A { withV [(5, 0x77)] with pc := 0x206 }).map (fun t => (t.wait, t.pc, t.readV 5)) =
    some (some 5, 0x208, 0x77) := by decide
theorem test_keyDown : (afterCommand (.keyDown 3) waitingState).map (fun t => (t.wait, t.readV 5, t.pc)) =
    some (none, 3, 0x200) := by decide
theorem test_keyDown_running : afterCommand (.keyDown 7) State.reset = some State.reset := by decide

/-! ### Timers and random: vectors S5 and V8 -/

theorem test_ldVxDt : (after 0xF307 { State.reset with dt := 0x2C }).map (fun t => (t.readV 3, t.dt)) =
    some (0x2C, 0x2C) := by decide
theorem test_ldDtVx : (after 0xF315 (withV [(3, 0x3C)])).map (fun t => t.dt) = some 0x3C := by decide
theorem test_ldStVx : (after 0xF318 (withV [(3, 0x05)])).map (fun t => (t.st, t.tone)) = some (0x05, false) := by decide
theorem test_rnd_draws_once : (after 0xC20F State.reset).map (fun t => t.draws) = some 1 := by decide
/-- "`kk = 0x00` gives Vx = 0 whatever the draw" (R243). -/
theorem test_rnd_zero_mask (s : State) : ∃ t, exec (.rnd 2 0x00) s = .next t ∧ t.readV 2 = 0 :=
  ⟨_, rfl, by simp⟩
theorem test_tick_sound : (afterCommand .tick { State.reset with st := 2 }).map (fun t => (t.st, t.tone)) =
    some (1, true) := by decide
theorem test_tick_length_one : (afterCommand .tick { State.reset with st := 1 }).map (fun t => (t.st, t.tone)) =
    some (0, false) := by decide
theorem test_tick_halted : afterCommand .tick { haltedState with dt := 5 } = some { haltedState with dt := 5 } := by decide

/-! ### Faults, commands and the batch: vectors V9 and S8 -/

theorem test_unknown : (after 0x0123 State.reset).map (fun t => (t.fault, t.faultOp, t.faultPc, t.pc)) =
    some (some .unknownOpcode, 0x0123, 0x200, 0x202) := by decide
theorem test_unknown_selector : (after 0x8128 (withV [(1, 5), (2, 6)])).map (fun t => (t.fault, t.readV 1)) =
    some (some .unknownOpcode, 5) := by decide
/-- "A step before any load executes the zero word at 0x200 and halts with `UnknownOpcode`" (R294). -/
theorem test_step_before_load : (afterCommand .step State.reset).map (fun t => (t.fault, t.faultOp, t.pc)) =
    some (some .unknownOpcode, 0x0000, 0x202) := by decide
theorem test_fetch_wraps : (after 0x60F0 { State.reset with pc := 0xFFF }).map (fun t => (t.pc, t.readV 0)) =
    some (0x001, 0xF0) := by decide
theorem test_load_one_byte : (afterCommand (.loadProgram [0x60]) State.reset).map
    (fun t => (t.readByte 0x200, t.readByte 0x201, t.fault)) = some (0x60, 0x00, none) := by decide
theorem test_load_empty : (afterCommand (.loadProgram []) State.reset).map (fun t => (t.fault, t.mem)) =
    some (some .invalidProgram, []) := by decide
theorem test_reset_leaves_halted : afterCommand .reset haltedState = some State.reset := by decide
/-- R226, R127: a batch while waiting is one tick. -/
theorem test_batch_waiting : (match runBatch 3 { waitingState with dt := 7 } with
    | .next t => some (t.dt, t.pc, t.wait) | .fault _ => none | .refused _ => none) = some (6, 0x200, some 5) := by decide
/-- S6: a key-down before a batch resolves the wait, a second one is ignored, and the batch then executes (here the zero
word at 0x200). -/
theorem test_frame : (match runFrame [.inl 3, .inl 7] 1 waitingState with
    | .next t => some (t.readV 5, t.wait, t.pc, t.fault) | .fault _ => none | .refused _ => none) =
    some (3, none, 0x202, some .unknownOpcode) := by decide
/-- Program P9: one byte 60 at 0x200 is the word 0x6000. -/
theorem test_boot : (match boot [0x60] haltedState with
    | .next t => some (t.fetchWord, t.pc, t.fault) | .fault _ => none | .refused _ => none) =
    some (0x6000, 0x200, none) := by decide
/-- R129: a fault ends the batch, with no tick. -/
theorem test_batch_fault : (match runBatch 3 { State.reset with dt := 7 } with
    | .next t => some (t.dt, t.fault) | .fault _ => none | .refused _ => none) =
    some (7, some .unknownOpcode) := by decide

/-! ### Witnesses: every statement with hypotheses has a state and operands that meet them, each clause at a boundary -/

/-- Reset with the word `w` at the pc. -/
def ready (w : Nat) : State := State.reset.withFetchWord 16 w

theorem witness_DecodeOfEncode : WellFormed (.jp 0x0FFF) ∧ WellFormed (.ldI 0) ∧ WellFormed (.drw 15 15 15) := by decide
theorem witness_EncodeOfDecode : decodeWord 0x1FFF#16 = .instr (.jp 0xFFF) ∧ decodeWord 0x8FFE#16 = .instr (.shl 15 15) := by
  decide
theorem witness_DecoderIsOpcodeMap_row :
    (⟨0xF065, 0xF0FF, "LD_Vx___I"⟩ : OpcodeRow) ∈ opcodeMap ∧ (0xFF65#16 &&& 0xF0FF#16 : Word) = 0xF065#16 := by decide
theorem witness_DecoderIsOpcodeMap_none : ∀ row ∈ opcodeMap, (0x0000#16 &&& row.mask : Word) ≠ row.pattern := by decide
/-- Both sides of the equivalence hold of a word, and both fail of another. -/
theorem witness_IllegalWords : decodeWord 0x00EF#16 = .rejected (.unknownOpcode 0x00EF#16) ∧
    decodeWord 0x1000#16 ≠ .rejected (.unknownOpcode 0x1000#16) := by decide
theorem witness_StepRunsDecodedInstruction : (ready 0x6A7F).fault = none ∧ (ready 0x6A7F).wait = none ∧
    fetched (ready 0x6A7F) = .instr (.ldImm 0xA 0x7F) ∧ (ready 0x6A7F).pending = [] := by decide
theorem witness_StepRunsDecodedInstruction_pending :
    let s := { ready 0x6A7F with pending := [.step, .tick] }
    s.fault = none ∧ s.wait = none ∧ fetched s = .instr (.ldImm 0xA 0x7F) ∧ s.pending = .step :: [.tick] := by decide
theorem witness_StepDoesOneOfThree_halted : haltedState.fault ≠ none := by decide
theorem witness_StepDoesOneOfThree_waiting : waitingState.fault = none ∧ waitingState.wait ≠ none := by decide
theorem witness_StepDoesOneOfThree_running : (ready 0xFF65).fault = none ∧ (ready 0xFF65).wait = none ∧
    decodeWord 0xFF65#16 = .instr (.ldRegs 15) := by decide
theorem witness_StepDoesOneOfThree_illegal : State.reset.fault = none ∧ State.reset.wait = none ∧
    decodeWord 0x0000#16 = .rejected (.unknownOpcode 0x0000#16) := by decide
theorem witness_PlacedWordRuns : Memory.wf { State.reset with pc := 0xFFF }.mem = true ∧
    decodeTableWord 16 0x00EE = some .ret := by decide
theorem witness_PcAfterStep : State.reset.pending = [] ∧ haltedState.pending = [] ∧ waitingState.pending = [] := by decide
theorem reset_inv : State.reset.Inv :=
  ⟨by decide, by decide, by decide, by decide, by decide, by decide, by decide⟩
theorem witness_StepKeepsInvariant : State.reset.Inv ∧ ∃ t, step State.reset = .next t := ⟨reset_inv, _, rfl⟩
theorem witness_CanonicalMemoryIsUnique : Memory.wf [(0x000, 0x01), (0xFFF, 0x02)] = true ∧
    ∀ a, a < 4096 → Memory.get [(0x000, 0x01), (0xFFF, 0x02)] a = Memory.get [(0x000, 0x01), (0xFFF, 0x02)] a :=
  ⟨by decide, fun _ _ => rfl⟩
theorem witness_OnlyListedRegistersWritten : ∃ t, exec (.addReg 1 2) State.reset = .next t := ⟨_, rfl⟩
theorem witness_OnlyListedRegistersRead : (2 : Reg) ∉ regsRead (.shr 1 2) ∧ ∃ t, exec (.shr 1 2) State.reset = .next t :=
  ⟨by decide, _, rfl⟩
theorem witness_OnlyListedRegistersRead_written : (15 : Reg) ∉ regsRead (.shr 1 2) ∧ (15 : Reg) ∈ regsWritten (.shr 1 2) := by
  decide
/-- A step's instruction changes a field: the premises of each clause are met by an instruction it names. -/
theorem witness_StateChangedOnly_mem : ∃ t, exec (.stRegs 0) State.reset = .next t ∧ t.mem ≠ State.reset.mem :=
  ⟨_, rfl, by decide⟩
theorem witness_StateChangedOnly_index : ∃ t, exec (.ldI 0xFFF) State.reset = .next t ∧ t.i ≠ State.reset.i :=
  ⟨_, rfl, by decide⟩
theorem witness_StateChangedOnly_stack : ∃ t, exec (.call 0) State.reset = .next t ∧ t.stack ≠ State.reset.stack ∧
    t.sp ≠ State.reset.sp := ⟨_, rfl, by decide, by decide⟩
theorem witness_StateChangedOnly_sp : ∃ t, exec .ret fullStack = .next t ∧ t.sp ≠ fullStack.sp := ⟨_, rfl, by decide⟩
theorem witness_StateChangedOnly_timers : (∃ t, exec (.ldDtVx 1) (withV [(1, 1)]) = .next t ∧ t.dt ≠ (withV [(1, 1)]).dt) ∧
    ∃ t, exec (.ldStVx 1) (withV [(1, 1)]) = .next t ∧ t.st ≠ (withV [(1, 1)]).st :=
  ⟨⟨_, rfl, by decide⟩, ⟨_, rfl, by decide⟩⟩
theorem witness_StateChangedOnly_wait : ∃ t, exec (.ldVxK 15) State.reset = .next t ∧ t.wait ≠ State.reset.wait :=
  ⟨_, rfl, by decide⟩
theorem witness_StateChangedOnly_display : ∃ t, exec (.drw 0 0 1) State.reset = .next t ∧ t.display ≠ State.reset.display :=
  ⟨_, rfl, by decide⟩
theorem witness_StateChangedOnly_draws : ∃ t, exec (.rnd 0 0xFF) State.reset = .next t ∧ t.draws ≠ State.reset.draws :=
  ⟨_, rfl, by decide⟩
theorem witness_OnlyCallAndReturnRaise_ret : ∃ t, exec .ret State.reset = .next t ∧
    (t.fault, t.faultOp, t.faultPc) ≠ (State.reset.fault, State.reset.faultOp, State.reset.faultPc) := ⟨_, rfl, by decide⟩
theorem witness_OnlyCallAndReturnRaise_call : ∃ t, exec (.call 0xFFF) fullStack = .next t ∧
    (t.fault, t.faultOp, t.faultPc) ≠ (fullStack.fault, fullStack.faultOp, fullStack.faultPc) := ⟨_, rfl, by decide⟩
theorem witness_HaltedIsFrozen : haltedState.fault ≠ none ∧ 1 ≤ 1 := by decide
theorem witness_WaitEnds_key :
    let s := { waitingState with pending := [.keyDown 0] }
    s.wait = some 5 ∧ ∃ t, step s = .next t ∧ t.wait ≠ some 5 := ⟨rfl, _, rfl, by decide⟩
theorem witness_WaitEnds_reset :
    let s := { waitingState with pending := [.reset] }
    s.wait = some 5 ∧ ∃ t, step s = .next t ∧ t.wait ≠ some 5 := ⟨rfl, _, rfl, by decide⟩
theorem witness_TickEffect_halted : haltedState.fault ≠ none := by decide
theorem witness_TickEffect_counting :
    let s := { State.reset with dt := 1, st := 255 }
    s.fault = none ∧ 0 < s.dt.toNat ∧ 0 < s.st.toNat ∧ 0 < s.tick.st.toNat := by decide
theorem witness_TickEffect_floor : State.reset.fault = none ∧ State.reset.dt.toNat = 0 ∧ State.reset.st.toNat = 0 ∧
    State.reset.tick.st.toNat = 0 := by decide
theorem witness_TickEffect_last : { State.reset with st := 1 }.fault = none ∧ 0 < { State.reset with st := 1 }.st.toNat ∧
    { State.reset with st := 1 }.tick.st.toNat = 0 := by decide
theorem witness_TimersAfterTicks : { State.reset with dt := 255, st := 1 }.fault = none ∧ 1 ≤ 256 := by decide
theorem witness_KeyDownEffect_ignored : State.reset.wait = none ∧ haltedState.fault ≠ none := by decide
theorem witness_KeyDownEffect_resolves : waitingState.fault = none ∧ waitingState.wait = some 5 := by decide
theorem witness_WaitForKey : State.reset.fault = none := by decide
theorem witness_LoadProgramEffect : Memory.wf State.reset.mem = true ∧ State.reset.loadable = true := by decide
theorem witness_LoadProgramEffect_lengths : (1 ≤ ([0x60] : List Byte).length ∧ ([0x60] : List Byte).length ≤ 3583) ∧
    (1 ≤ (List.replicate 3583 (0 : Byte)).length ∧ (List.replicate 3583 (0 : Byte)).length ≤ 3583) ∧
    ([] : List Byte).length = 0 ∧ 3583 < (List.replicate 3584 (0 : Byte)).length := by
  simp only [List.length_replicate, List.length_cons, List.length_nil]; decide
theorem witness_RefusedCommands : (State.reset.advance).loadable = false := by decide
theorem witness_FrameIsItsCommands : 1 ≤ 1 ∧ waitingState.pending = [] := by decide
theorem witness_BootSequence : 1 ≤ ([0x60] : List Byte).length ∧ ([0x60] : List Byte).length ≤ 3583 := by decide
theorem witness_BatchIsStepsThenTick : 1 ≤ 1 ∧ State.reset.pending = [] := by decide
theorem witness_BatchWhileWaiting : 1 ≤ 1 ∧ waitingState.fault = none ∧ waitingState.wait ≠ none := by decide
theorem witness_addresses : (0x000 : Word).toNat < 4096 ∧ (0xFFF : Word).toNat < 4096 := by decide
/-- `Jump`, `JumpOffset` and `LoadIndex` ask for a 12-bit nnn only: `witness_addresses` is their witness, and `Call`'s. -/
theorem witness_Call_clauses : State.reset.sp.val < 16 ∧ { State.reset with sp := 15 }.sp.val < 16 ∧ fullStack.sp.val = 16 := by
  decide
theorem witness_Return_clauses : 0 < { State.reset with sp := 1 }.sp.val ∧ 0 < fullStack.sp.val ∧ State.reset.sp.val = 0 := by
  decide
theorem witness_CallThenReturn :
    let s := { State.reset with sp := 15, pc := 0xFFF }
    s.sp.val < 16 ∧ s.pc.toNat < 4096 := by decide
theorem witness_FlagRegisterAsOperand : (14 : Reg) ≠ 15 ∧ (0 : Reg) ≠ 15 := by decide
theorem witness_stores : Memory.wf (State.reset.writeByte 0xFFF 0x77).mem = true := by decide
/-- `StoreDecimalDigits` and `StoreRegisters` ask for canonical memory only: `witness_stores`. -/
theorem witness_StoredWordIsFetched :
    let s := { State.reset with i := 0xFFF }
    Memory.wf s.mem = true ∧ s.i.toNat < 4096 ∧ 1 ≤ (1 : Reg).val := by decide
theorem witness_DrawIsExclusiveOr : State.reset.display.wf = true ∧ 8 ≤ State.reset.display.width ∧
    (15 : Fin 16).val ≤ State.reset.display.height := by decide
/-- The smallest display the statement admits, with its last pixel lit. -/
theorem witness_DrawIsExclusiveOr_small :
    let d : Display := ⟨8, 15, [119]⟩
    d.wf = true ∧ 8 ≤ d.width ∧ (15 : Fin 16).val ≤ d.height := by decide
theorem witness_DrawTwiceRestores :
    let d : Display := ⟨1, 1, [0]⟩
    d.wf = true ∧ (0 : Reg) ≠ 15 ∧ (14 : Reg) ≠ 15 := by decide

end Sys2Proof.Tests
end

section
/-! Jumps (41_flow.md): the words of the format ADDR as numbers, what a write of the pc changes, and `1nnn`. -/

namespace Sys2Proof.FlowProofs

open Sys2Proof Sys2Proof.Machine Sys2Proof.Statements

/-- The number `family * 4096 + nnn` is the word of the format ADDR (R93). -/
theorem ofNat_eq_encodeAddr (f : BitVec 4) {nnn : Word} (h : nnn.toNat < 4096) :
    BitVec.ofNat 16 (f.toNat * 4096 + nnn.toNat) = encodeAddr f nnn := by
  apply BitVec.eq_of_toNat_eq
  rw [encodeAddr_toNat, BitVec.toNat_ofNat]
  omega

/-- A 12-bit address is written to I or pc as it is. -/
theorem addressWord_of_lt {a : Word} (h : a.toNat < 4096) : addressWord a.toNat = a := by
  apply BitVec.eq_of_toNat_eq
  rw [addressWord_toNat, memSize, Nat.mod_eq_of_lt h]

theorem pcFrame_setPc (s : State) (n : Nat) : PcFrame s (s.setPc n) :=
  ⟨fun r _ => s.readV_setPc r n, fun a => s.readByte_setPc a n, rfl⟩

theorem exec_jp (nnn : Word) (s : State) : exec (.jp nnn) s = .next (s.setPc nnn.toNat) := rfl

theorem wordOf_jp {nnn : Word} (h : nnn.toNat < 4096) : WordOf (0x1000 + nnn.toNat) (.jp nnn) := by
  have hw : BitVec.ofNat 16 (0x1000 + nnn.toNat) = encodeAddr 0x1#4 nnn := ofNat_eq_encodeAddr 0x1#4 h
  rw [WordOf, hw, decodeWord_family1 (fieldFamily_encodeAddr _ _), fieldNnn_encodeAddr _ _ ((addressOk_iff nnn).mpr h)]

/-- Settles O31: the word decodes through the format ADDR, and the meaning is one write of the pc, which keeps a 12-bit
target as it is. -/
theorem jump : Obligations.Jump := fun s nnn h =>
  ⟨wordOf_jp h, s.setPc nnn.toNat, exec_jp nnn s, addressWord_of_lt h, pcFrame_setPc s nnn.toNat⟩

end Sys2Proof.FlowProofs
end

section
/-! Immediates (43_load_add_immediate.md): the words of the format RIMM as numbers, what a register write changes, and
`6xkk` and `7xkk`. -/

namespace Sys2Proof.ImmediateProofs

open Sys2Proof Sys2Proof.Machine Sys2Proof.Statements

/-- The number `family * 4096 + x * 256 + kk` is the word of the format RIMM (R93). -/
theorem ofNat_eq_encodeRegByte (f : BitVec 4) (x : Reg) (kk : Byte) :
    BitVec.ofNat 16 (f.toNat * 4096 + x.val * 256 + kk.toNat) = encodeRegByte f x kk := by
  rw [← encodeRegByte_toNat, BitVec.ofNat_toNat, BitVec.setWidth_eq]

/-- One register write changes that register only (R21). -/
theorem regFrame_writeV (s : State) (x : Reg) (b : Byte) : RegFrame [x] s (s.writeV x b) :=
  ⟨fun _ h => State.readV_writeV_ne s (List.ne_of_not_mem_cons h) b, fun a => s.readByte_writeV a x b, rfl⟩

theorem exec_ldImm (x : Reg) (kk : Byte) (s : State) : exec (.ldImm x kk) s = .next (s.writeV x kk) := rfl

theorem exec_addImm (x : Reg) (kk : Byte) (s : State) :
    exec (.addImm x kk) s = .next (s.writeV x (s.readV x + kk)) := rfl

theorem wordOf_ldImm (x : Reg) (kk : Byte) : WordOf (0x6000 + x.val * 256 + kk.toNat) (.ldImm x kk) := by
  have hw : BitVec.ofNat 16 (0x6000 + x.val * 256 + kk.toNat) = encodeRegByte 0x6#4 x kk :=
    ofNat_eq_encodeRegByte 0x6#4 x kk
  rw [WordOf, hw, decodeWord_family6 (fieldFamily_encodeRegByte _ _ _), fieldX_encodeRegByte, fieldKk_encodeRegByte]

theorem wordOf_addImm (x : Reg) (kk : Byte) : WordOf (0x7000 + x.val * 256 + kk.toNat) (.addImm x kk) := by
  have hw : BitVec.ofNat 16 (0x7000 + x.val * 256 + kk.toNat) = encodeRegByte 0x7#4 x kk :=
    ofNat_eq_encodeRegByte 0x7#4 x kk
  rw [WordOf, hw, decodeWord_family7 (fieldFamily_encodeRegByte _ _ _), fieldX_encodeRegByte, fieldKk_encodeRegByte]

/-- Settles O39: the word decodes through the format RIMM, and the meaning is one write of Vx. -/
theorem loadImmediate : Obligations.LoadImmediate := fun s x kk =>
  ⟨wordOf_ldImm x kk, s.writeV x kk, exec_ldImm x kk s, s.readV_writeV_self x kk, regFrame_writeV s x kk⟩

/-- Settles O40: the meaning is one write of Vx, whose value is the sum of two bytes and so reduced modulo 256. -/
theorem addImmediate : Obligations.AddImmediate := by
  intro s x kk
  have hsum : ((s.writeV x (s.readV x + kk)).readV x).toNat = ((s.readV x).toNat + kk.toNat) % 256 := by
    rw [State.readV_writeV_self, BitVec.toNat_add]
  exact ⟨wordOf_addImm x kk, s.writeV x (s.readV x + kk), exec_addImm x kk s, hsum, regFrame_writeV s x _⟩

end Sys2Proof.ImmediateProofs
end

section
/-! ALU without a flag (44_alu.md): the words of the format RR as numbers, what the shared meaning of `8xy0` to `8xy3`
writes and leaves, and the four instructions. -/

namespace Sys2Proof.AluProofs

open Sys2Proof Sys2Proof.Machine Sys2Proof.Statements Sys2Proof.ImmediateProofs

/-- The number `family * 4096 + n + x * 256 + y * 16` is the word of the format RR (R93). The selector `n` stands next to
the family because a pattern such as `8xy1` fixes the two together. -/
theorem ofNat_eq_encodeRegReg (f : BitVec 4) (x y : Reg) (n : BitVec 4) :
    BitVec.ofNat 16 (f.toNat * 4096 + n.toNat + x.val * 256 + y.val * 16) = encodeRegReg f x y n := by
  apply BitVec.eq_of_toNat_eq
  rw [encodeRegReg_toNat, BitVec.toNat_ofNat]
  omega

/-- A word of family 8 is the instruction its selector names (R170). -/
theorem wordOf_family8 {x y : Reg} {n : BitVec 4} {i : Instr}
    (h : decodeFamily8 (encodeRegReg 0x8#4 x y n) = .instr i) :
    WordOf ((0x8#4).toNat * 4096 + n.toNat + x.val * 256 + y.val * 16) i := by
  rw [WordOf, ofNat_eq_encodeRegReg, decodeWord_family8 (fieldFamily_encodeRegReg _ _ _ _), h]

theorem wordOf_ldReg (x y : Reg) : WordOf (0x8000 + x.val * 256 + y.val * 16) (.ldReg x y) :=
  wordOf_family8 (n := 0x0#4) (by simp [decodeFamily8])

theorem wordOf_orReg (x y : Reg) : WordOf (0x8001 + x.val * 256 + y.val * 16) (.orReg x y) :=
  wordOf_family8 (n := 0x1#4) (by simp [decodeFamily8])

theorem wordOf_andReg (x y : Reg) : WordOf (0x8002 + x.val * 256 + y.val * 16) (.andReg x y) :=
  wordOf_family8 (n := 0x2#4) (by simp [decodeFamily8])

theorem wordOf_xorReg (x y : Reg) : WordOf (0x8003 + x.val * 256 + y.val * 16) (.xorReg x y) :=
  wordOf_family8 (n := 0x3#4) (by simp [decodeFamily8])

theorem exec_ldReg (x y : Reg) (s : State) : exec (.ldReg x y) s = .next (s.aluPlain x y fun _ b => b) := rfl

theorem exec_orReg (x y : Reg) (s : State) : exec (.orReg x y) s = .next (s.aluPlain x y fun a b => a ||| b) := rfl

theorem exec_andReg (x y : Reg) (s : State) : exec (.andReg x y) s = .next (s.aluPlain x y fun a b => a &&& b) := rfl

theorem exec_xorReg (x y : Reg) (s : State) : exec (.xorReg x y) s = .next (s.aluPlain x y fun a b => a ^^^ b) := rfl

/-- Vx takes the function of the two operands as they were, and no other register, VF included, changes. -/
theorem aluPlain_result (s : State) (x y : Reg) (f : Byte → Byte → Byte) :
    (s.aluPlain x y f).readV x = f (s.readV x) (s.readV y) ∧ RegFrame [x] s (s.aluPlain x y f) := by
  rw [State.aluPlain_eq]
  exact ⟨s.readV_writeV_self x _, regFrame_writeV s x _⟩

/-- Settles O41: each word decodes by its selector in family 8, and each meaning is the one register write of
`aluPlain_result` with its own function. -/
theorem aluWithoutFlag : Obligations.AluWithoutFlag := fun s x y =>
  ⟨⟨wordOf_ldReg x y, _, exec_ldReg x y s, aluPlain_result s x y _⟩,
    ⟨wordOf_orReg x y, _, exec_orReg x y s, aluPlain_result s x y _⟩,
    ⟨wordOf_andReg x y, _, exec_andReg x y s, aluPlain_result s x y _⟩,
    ⟨wordOf_xorReg x y, _, exec_xorReg x y s, aluPlain_result s x y _⟩⟩

end Sys2Proof.AluProofs
end

section
/-! Index loads (45_index_and_memory.md): the word of `Annn`, what a write of I changes, and the instruction. -/

namespace Sys2Proof.IndexProofs

open Sys2Proof Sys2Proof.Machine Sys2Proof.Statements Sys2Proof.FlowProofs

theorem indexFrame_setI (s : State) (n : Nat) : IndexFrame s (s.setI n) :=
  ⟨fun r _ => s.readV_setI r n, fun a => s.readByte_setI a n, rfl⟩

theorem exec_ldI (nnn : Word) (s : State) : exec (.ldI nnn) s = .next (s.setI nnn.toNat) := rfl

theorem wordOf_ldI {nnn : Word} (h : nnn.toNat < 4096) : WordOf (0xA000 + nnn.toNat) (.ldI nnn) := by
  have hw : BitVec.ofNat 16 (0xA000 + nnn.toNat) = encodeAddr 0xA#4 nnn := ofNat_eq_encodeAddr 0xA#4 h
  rw [WordOf, hw, decodeWord_familyA (fieldFamily_encodeAddr _ _), fieldNnn_encodeAddr _ _ ((addressOk_iff nnn).mpr h)]

/-- The reduction of R26 leaves a 12-bit address as it is. -/
theorem setI_i_of_lt (s : State) {nnn : Word} (h : nnn.toNat < 4096) : (s.setI nnn.toNat).i = nnn :=
  (s.setI_i nnn.toNat).trans (addressWord_of_lt h)

/-- Settles O48: the word decodes through the format ADDR, and the meaning is one write of I, which keeps a 12-bit address
as it is. -/
theorem loadIndex : Obligations.LoadIndex := fun s nnn h =>
  ⟨wordOf_ldI h, s.setI nnn.toNat, exec_ldI nnn s, setI_i_of_lt s h, indexFrame_setI s nnn.toNat⟩

end Sys2Proof.IndexProofs
end

section
/-! Clearing the display (46_display.md): the word of `00E0`, what a new display leaves of the state, and the
instruction. -/

namespace Sys2Proof.ClearDisplayProofs

open Sys2Proof Sys2Proof.Machine Sys2Proof.Statements

/-- Only the display changes. -/
def DisplayFrame (s t : State) : Prop := RegsKept [] s t ∧ MemoryKept s t ∧ t = { s with display := t.display }

theorem displayFrame_setDisplay (s : State) (d : Display) : DisplayFrame s (s.setDisplay d) :=
  ⟨fun r _ => s.readV_setDisplay r d, fun a => s.readByte_setDisplay a d, rfl⟩

theorem exec_cls (s : State) : exec .cls s = .next (s.setDisplay s.display.clear) := rfl

theorem wordOf_cls : WordOf 0x00E0 .cls := by
  have hfamily : fieldFamily (0x00E0#16) = 0x0#4 := by decide
  rw [WordOf, decodeWord_family0 hfamily, decodeFamily0, if_pos rfl]

/-- Settles O54: the word is compared whole in family 0, and the meaning is one write of the display, whose value keeps
its size and has no lit cell. -/
theorem clearDisplay : Obligations.ClearDisplay :=
  ⟨wordOf_cls, fun s => ⟨s.setDisplay s.display.clear, exec_cls s, s.display.clear_pixel, s.display.clear_width,
    s.display.clear_height, displayFrame_setDisplay s s.display.clear⟩⟩

end Sys2Proof.ClearDisplayProofs
end

section
/-! Waiting for a key (47_keyboard_and_wait.md): the words of family F as numbers, what a registered wait leaves of the
state, what a step and a key-down do to a waiting machine, and `Fx0A`. -/

namespace Sys2Proof.WaitProofs

open Sys2Proof Sys2Proof.Machine Sys2Proof.Statements Sys2Proof.ImmediateProofs

/-- A word of family F is the instruction its low byte names (R98). The low byte stands next to the family because a
pattern such as `Fx0A` fixes the two together. -/
theorem wordOf_familyF {x : Reg} {kk : Byte} {i : Instr}
    (h : decodeFamilyF (encodeRegByte 0xF#4 x kk) = .instr i) :
    WordOf ((0xF#4).toNat * 4096 + kk.toNat + x.val * 256) i := by
  rw [WordOf, Nat.add_right_comm, ofNat_eq_encodeRegByte, decodeWord_familyF (fieldFamily_encodeRegByte _ _ _), h]

theorem wordOf_ldVxK (x : Reg) : WordOf (0xF00A + x.val * 256) (.ldVxK x) :=
  wordOf_familyF (kk := 0x0A#8) (by simp [decodeFamilyF])

theorem exec_ldVxK (x : Reg) (s : State) : exec (.ldVxK x) s = .next (s.setWait (some x)) := rfl

/-- Only the wait registration changes. -/
def WaitFrame (s t : State) : Prop := RegsKept [] s t ∧ MemoryKept s t ∧ t = { s with wait := t.wait }

theorem waitFrame_setWait (s : State) (w : Option Reg) : WaitFrame s (s.setWait w) :=
  ⟨fun r _ => s.readV_setWait r w, fun a => s.readByte_setWait a w, rfl⟩

/-- A step of a waiting machine is a no-op, Halted or not (R127, R128). -/
theorem stepCommand_of_wait {s : State} {r : Reg} (hw : s.wait = some r) : stepCommand s = .next s := by
  obtain ⟨-, h⟩ | ⟨-, -, h⟩ | ⟨_, -, hnone, -⟩ | ⟨_, -, hnone, -⟩ := stepCommand_cases s
  · exact h
  · exact h
  · simp [hw] at hnone
  · simp [hw] at hnone

/-- A key-down writes the key to the register that waits for it and ends the wait (R227). -/
theorem keyDown_of_wait {s : State} {r : Reg} (hf : s.fault = none) (hw : s.wait = some r) (k : Fin 16) :
    s.keyDown k = (s.writeV r (BitVec.ofNat 8 k.val)).setWait none := by
  simp [State.keyDown, State.halted, hf, hw]

/-- A key that resolves a wait reads back as its number, and the pc is where it was. -/
theorem keyDown_resolves {s : State} {r : Reg} (hf : s.fault = none) (hw : s.wait = some r) (k : Fin 16) :
    ((s.keyDown k).readV r).toNat = k.val ∧ (s.keyDown k).wait = none ∧ (s.keyDown k).pc = s.pc := by
  have hbyte : (BitVec.ofNat 8 k.val).toNat = k.val := by
    rw [BitVec.toNat_ofNat, Nat.mod_eq_of_lt (k.isLt.trans (by decide))]
  rw [keyDown_of_wait hf hw]
  exact ⟨by rw [State.readV_setWait, State.readV_writeV_self, hbyte], rfl, rfl⟩

/-- Settles O58: the meaning is one write of the wait registration, and the machine it leaves is waiting, so that
`stepCommand_of_wait` and `keyDown_resolves` say what follows. -/
theorem waitForKey : Obligations.WaitForKey := by
  intro s x
  obtain ⟨hregs, hmem, hrest⟩ := waitFrame_setWait s (some x)
  have hwait : (s.setWait (some x)).wait = some x := s.setWait_wait (some x)
  exact ⟨wordOf_ldVxK x, s.setWait (some x), exec_ldVxK x s, hwait, hregs, hmem, hrest, stepCommand_of_wait hwait,
    fun hf k => ⟨_, rfl, keyDown_resolves (s := s.setWait (some x)) hf hwait k⟩⟩

end Sys2Proof.WaitProofs
end

section
/-! The decoder and the encoder (30_encoding.md): each is the other's inverse, the decoder is the opcode map, and the
words it rejects. -/

namespace Sys2Proof.EncodingProofs

open Sys2Proof Sys2Proof.Machine Sys2Proof.Statements Sys2Proof.Laws

/-- Settles O1, by the format of each instruction's word: the family selects the handler, and the fields of an encoded
word are the operands. -/
theorem decodeOfEncode : Obligations.DecodeOfEncode := by
  intro i hwf
  cases i with
  | cls | ret => decide
  | jp nnn => rw [encode, decodeWord_family1 (fieldFamily_encodeAddr _ _), fieldNnn_encodeAddr _ _ hwf]
  | call nnn => rw [encode, decodeWord_family2 (fieldFamily_encodeAddr _ _), fieldNnn_encodeAddr _ _ hwf]
  | ldI nnn => rw [encode, decodeWord_familyA (fieldFamily_encodeAddr _ _), fieldNnn_encodeAddr _ _ hwf]
  | jpV0 nnn => rw [encode, decodeWord_familyB (fieldFamily_encodeAddr _ _), fieldNnn_encodeAddr _ _ hwf]
  | seImm x kk => simp [encode, decodeWord_family3]
  | sneImm x kk => simp [encode, decodeWord_family4]
  | ldImm x kk => simp [encode, decodeWord_family6]
  | addImm x kk => simp [encode, decodeWord_family7]
  | rnd x kk => simp [encode, decodeWord_familyC]
  | drw x y n => simp [encode, decodeWord_familyD]
  | seReg x y => simp [encode, decodeWord_family5, decodeFamily5]
  | sneReg x y => simp [encode, decodeWord_family9, decodeFamily9]
  | ldReg x y | orReg x y | andReg x y | xorReg x y | addReg x y | subReg x y | shr x y | subnReg x y | shl x y =>
    simp [encode, decodeWord_family8, decodeFamily8]
  | skp x | sknp x => simp [encode, decodeWord_familyE, decodeFamilyE]
  | ldVxDt x | ldVxK x | ldDtVx x | ldStVx x | addI x | ldF x | ldB x | stRegs x | ldRegs x =>
    simp [encode, decodeWord_familyF, decodeFamilyF]

/-! ### A word is the word of its fields -/

theorem encodeAddr_fields (w : Word) : encodeAddr (fieldFamily w) (fieldNnn w) = w := by
  apply BitVec.eq_of_toNat_eq
  rw [encodeAddr_toNat, fieldFamily_toNat, fieldNnn_toNat]
  omega

theorem encodeRegByte_fields (w : Word) : encodeRegByte (fieldFamily w) (fieldX w) (fieldKk w) = w := by
  apply BitVec.eq_of_toNat_eq
  rw [encodeRegByte_toNat, fieldFamily_toNat, fieldX_val, fieldKk_toNat]
  omega

theorem encodeRegReg_fields (w : Word) : encodeRegReg (fieldFamily w) (fieldX w) (fieldY w) (fieldN w) = w := by
  apply BitVec.eq_of_toNat_eq
  rw [encodeRegReg_toNat, fieldFamily_toNat, fieldX_val, fieldY_val, fieldN_toNat]
  omega

theorem addressOk_fieldNnn (w : Word) : addressOk (fieldNnn w) = true := by
  rw [addressOk_iff, fieldNnn_toNat]
  omega

/-- The word `w` is the word of the well-formed instruction `i`. -/
def Encodes (i : Instr) (w : Word) : Prop := encode i = w ∧ WellFormed i

section
variable {w : Word} {f : BitVec 4} {i : Instr}

theorem encodes_of_addr (hf : fieldFamily w = f) (he : encode i = encodeAddr f (fieldNnn w))
    (hwf : wellFormed i = addressOk (fieldNnn w)) : Encodes i w := by
  subst hf
  exact ⟨he.trans (encodeAddr_fields w), hwf.trans (addressOk_fieldNnn w)⟩

theorem encodes_of_regByte {kk : Byte} (hf : fieldFamily w = f) (hk : fieldKk w = kk)
    (he : encode i = encodeRegByte f (fieldX w) kk) (hwf : WellFormed i) : Encodes i w := by
  subst hf hk
  exact ⟨he.trans (encodeRegByte_fields w), hwf⟩

theorem encodes_of_regReg {n : BitVec 4} (hf : fieldFamily w = f) (hn : fieldN w = n)
    (he : encode i = encodeRegReg f (fieldX w) (fieldY w) n) (hwf : WellFormed i) : Encodes i w := by
  subst hf hn
  exact ⟨he.trans (encodeRegReg_fields w), hwf⟩

/-! ### What each second level decodes, it encodes -/

theorem encodes_of_decodeFamily0 (h : decodeFamily0 w = .instr i) : Encodes i w := by
  unfold decodeFamily0 at h
  split_ifs at h with h1 h2 <;> cases h
  · exact ⟨h1.symm, rfl⟩
  · exact ⟨h2.symm, rfl⟩

theorem encodes_of_decodeFamily5 (hf : fieldFamily w = 0x5#4) (h : decodeFamily5 w = .instr i) : Encodes i w := by
  unfold decodeFamily5 at h
  split_ifs at h with hn
  cases h
  exact encodes_of_regReg hf hn rfl rfl

theorem encodes_of_decodeFamily8 (hf : fieldFamily w = 0x8#4) (h : decodeFamily8 w = .instr i) : Encodes i w := by
  unfold decodeFamily8 at h
  split_ifs at h with hn hn hn hn hn hn hn hn hn <;> cases h <;> exact encodes_of_regReg hf hn rfl rfl

theorem encodes_of_decodeFamily9 (hf : fieldFamily w = 0x9#4) (h : decodeFamily9 w = .instr i) : Encodes i w := by
  unfold decodeFamily9 at h
  split_ifs at h with hn
  cases h
  exact encodes_of_regReg hf hn rfl rfl

theorem encodes_of_decodeFamilyE (hf : fieldFamily w = 0xE#4) (h : decodeFamilyE w = .instr i) : Encodes i w := by
  unfold decodeFamilyE at h
  split_ifs at h with hk hk <;> cases h <;> exact encodes_of_regByte hf hk rfl rfl

theorem encodes_of_decodeFamilyF (hf : fieldFamily w = 0xF#4) (h : decodeFamilyF w = .instr i) : Encodes i w := by
  unfold decodeFamilyF at h
  split_ifs at h with hk hk hk hk hk hk hk hk hk <;> cases h <;> exact encodes_of_regByte hf hk rfl rfl

end

/-- Settles O2: in each of the 16 families the fields that select and fill the instruction are the whole word. -/
theorem encodeOfDecode : Obligations.EncodeOfDecode := by
  intro w i h
  show Encodes i w
  rcases nibble_cases (fieldFamily w) with
    hf | hf | hf | hf | hf | hf | hf | hf | hf | hf | hf | hf | hf | hf | hf | hf
  · exact encodes_of_decodeFamily0 ((decodeWord_family0 hf).symm.trans h)
  · cases (decodeWord_family1 hf).symm.trans h; exact encodes_of_addr hf rfl rfl
  · cases (decodeWord_family2 hf).symm.trans h; exact encodes_of_addr hf rfl rfl
  · cases (decodeWord_family3 hf).symm.trans h; exact encodes_of_regByte hf rfl rfl rfl
  · cases (decodeWord_family4 hf).symm.trans h; exact encodes_of_regByte hf rfl rfl rfl
  · exact encodes_of_decodeFamily5 hf ((decodeWord_family5 hf).symm.trans h)
  · cases (decodeWord_family6 hf).symm.trans h; exact encodes_of_regByte hf rfl rfl rfl
  · cases (decodeWord_family7 hf).symm.trans h; exact encodes_of_regByte hf rfl rfl rfl
  · exact encodes_of_decodeFamily8 hf ((decodeWord_family8 hf).symm.trans h)
  · exact encodes_of_decodeFamily9 hf ((decodeWord_family9 hf).symm.trans h)
  · cases (decodeWord_familyA hf).symm.trans h; exact encodes_of_addr hf rfl rfl
  · cases (decodeWord_familyB hf).symm.trans h; exact encodes_of_addr hf rfl rfl
  · cases (decodeWord_familyC hf).symm.trans h; exact encodes_of_regByte hf rfl rfl rfl
  · cases (decodeWord_familyD hf).symm.trans h
    exact encodes_of_regReg hf rfl (by rw [encode, bitsOfReg_regOfBits]) rfl
  · exact encodes_of_decodeFamilyE hf ((decodeWord_familyE hf).symm.trans h)
  · exact encodes_of_decodeFamilyF hf ((decodeWord_familyF hf).symm.trans h)

/-! ### The illegal words (R98) -/

section
variable {w : Word}

theorem fieldFamily_eq_iff (f : BitVec 4) : fieldFamily w = f ↔ w.toNat / 4096 = f.toNat := by
  rw [← BitVec.toNat_inj, fieldFamily_toNat]

theorem fieldN_eq_iff (n : BitVec 4) : fieldN w = n ↔ w.toNat % 16 = n.toNat := by
  rw [← BitVec.toNat_inj, fieldN_toNat]

theorem fieldKk_eq_iff (kk : Byte) : fieldKk w = kk ↔ w.toNat % 256 = kk.toNat := by
  rw [← BitVec.toNat_inj, fieldKk_toNat]

theorem decodeFamily0_rejects_iff :
    decodeFamily0 w = .rejected (.unknownOpcode w) ↔ w ≠ 0x00E0#16 ∧ w ≠ 0x00EE#16 := by
  unfold decodeFamily0
  split_ifs <;> simp [*]

theorem decodeFamily5_rejects_iff : decodeFamily5 w = .rejected (.unknownOpcode w) ↔ w.toNat % 16 ≠ 0 := by
  simp [decodeFamily5, fieldN_eq_iff]

theorem decodeFamily8_rejects_iff : decodeFamily8 w = .rejected (.unknownOpcode w) ↔
    w.toNat % 16 ∈ [0x8, 0x9, 0xA, 0xB, 0xC, 0xD, 0xF] := by
  simp only [decodeFamily8, fieldN_eq_iff, BitVec.toNat_ofNat, List.mem_cons, List.not_mem_nil]
  split_ifs <;> simp <;> omega

theorem decodeFamily9_rejects_iff : decodeFamily9 w = .rejected (.unknownOpcode w) ↔ w.toNat % 16 ≠ 0 := by
  simp [decodeFamily9, fieldN_eq_iff]

theorem decodeFamilyE_rejects_iff :
    decodeFamilyE w = .rejected (.unknownOpcode w) ↔ w.toNat % 256 ∉ [0x9E, 0xA1] := by
  simp only [decodeFamilyE, fieldKk_eq_iff, BitVec.toNat_ofNat, List.mem_cons, List.not_mem_nil]
  split_ifs <;> simp <;> omega

theorem decodeFamilyF_rejects_iff : decodeFamilyF w = .rejected (.unknownOpcode w) ↔
    w.toNat % 256 ∉ [0x07, 0x0A, 0x15, 0x18, 0x1E, 0x29, 0x33, 0x55, 0x65] := by
  simp only [decodeFamilyF, fieldKk_eq_iff, BitVec.toNat_ofNat, List.mem_cons, List.not_mem_nil]
  split_ifs <;> simp <;> omega

end

/-- Settles O4: the families 0, 5, 8, 9, E and F reject by their second level, and the other ten take every word. -/
theorem illegalWords : Obligations.IllegalWords := by
  intro w
  rcases nibble_cases (fieldFamily w) with
    hf | hf | hf | hf | hf | hf | hf | hf | hf | hf | hf | hf | hf | hf | hf | hf <;>
    have hn := (fieldFamily_eq_iff _).mp hf
  · simp [decodeWord_family0 hf, decodeFamily0_rejects_iff, hn]
  · simp [decodeWord_family1 hf, hn]
  · simp [decodeWord_family2 hf, hn]
  · simp [decodeWord_family3 hf, hn]
  · simp [decodeWord_family4 hf, hn]
  · simp [decodeWord_family5 hf, decodeFamily5_rejects_iff, hn]
  · simp [decodeWord_family6 hf, hn]
  · simp [decodeWord_family7 hf, hn]
  · simp [decodeWord_family8 hf, decodeFamily8_rejects_iff, hn]
  · simp [decodeWord_family9 hf, decodeFamily9_rejects_iff, hn]
  · simp [decodeWord_familyA hf, hn]
  · simp [decodeWord_familyB hf, hn]
  · simp [decodeWord_familyC hf, hn]
  · simp [decodeWord_familyD hf, hn]
  · simp [decodeWord_familyE hf, decodeFamilyE_rejects_iff, hn]
  · simp [decodeWord_familyF hf, decodeFamilyF_rejects_iff, hn]

/-! ### The opcode map (R96) -/

/-- An instruction's row of the opcode map. -/
def rowOf (i : Instr) : OpcodeRow := ⟨(OpcodeRow.matchAndMask i).1, (OpcodeRow.matchAndMask i).2, mnemonicOf i⟩

theorem rowOf_mem (i : Instr) : rowOf i ∈ opcodeMap := by
  cases i <;> simp [rowOf, OpcodeRow.matchAndMask, mnemonicOf, opcodeMap]

/-- The word of an instruction selects its row. -/
theorem encode_matches (i : Instr) : encode i &&& (rowOf i).mask = (rowOf i).pattern := by
  cases i with
  | cls => exact OpcodeRow.cls
  | ret => exact OpcodeRow.ret
  | jp nnn => exact OpcodeRow.jp nnn
  | call nnn => exact OpcodeRow.call nnn
  | seImm x kk => exact OpcodeRow.seImm x kk
  | sneImm x kk => exact OpcodeRow.sneImm x kk
  | seReg x y => exact OpcodeRow.seReg x y
  | ldImm x kk => exact OpcodeRow.ldImm x kk
  | addImm x kk => exact OpcodeRow.addImm x kk
  | ldReg x y => exact OpcodeRow.ldReg x y
  | orReg x y => exact OpcodeRow.orReg x y
  | andReg x y => exact OpcodeRow.andReg x y
  | xorReg x y => exact OpcodeRow.xorReg x y
  | addReg x y => exact OpcodeRow.addReg x y
  | subReg x y => exact OpcodeRow.subReg x y
  | shr x y => exact OpcodeRow.shr x y
  | subnReg x y => exact OpcodeRow.subnReg x y
  | shl x y => exact OpcodeRow.shl x y
  | sneReg x y => exact OpcodeRow.sneReg x y
  | ldI nnn => exact OpcodeRow.ldI nnn
  | jpV0 nnn => exact OpcodeRow.jpV0 nnn
  | rnd x kk => exact OpcodeRow.rnd x kk
  | drw x y n => exact OpcodeRow.drw x y n
  | skp x => exact OpcodeRow.skp x
  | sknp x => exact OpcodeRow.sknp x
  | ldVxDt x => exact OpcodeRow.ldVxDt x
  | ldVxK x => exact OpcodeRow.ldVxK x
  | ldDtVx x => exact OpcodeRow.ldDtVx x
  | ldStVx x => exact OpcodeRow.ldStVx x
  | addI x => exact OpcodeRow.addI x
  | ldF x => exact OpcodeRow.ldF x
  | ldB x => exact OpcodeRow.ldB x
  | stRegs x => exact OpcodeRow.stRegs x
  | ldRegs x => exact OpcodeRow.ldRegs x

/-- Two rows that agree where both masks look are the same row. -/
theorem rows_disjoint : ∀ row ∈ opcodeMap, ∀ row' ∈ opcodeMap,
    row.pattern &&& row'.mask = row'.pattern &&& row.mask → row = row' := by
  decide

theorem row_unique {w : Word} {row row' : OpcodeRow} (hrow : row ∈ opcodeMap) (hrow' : row' ∈ opcodeMap)
    (h : w &&& row.mask = row.pattern) (h' : w &&& row'.mask = row'.pattern) : row = row' :=
  rows_disjoint row hrow row' hrow' (by rw [← h, ← h', BitVec.and_assoc, BitVec.and_assoc, BitVec.and_comm row.mask])

/-! ### A mask that covers a field leaves it as the pattern has it -/

section
variable {w m p : Word}

theorem fieldFamily_of_match (hm : fieldFamily m = 0xF#4) (h : w &&& m = p) : fieldFamily w = fieldFamily p := by
  have hand : fieldFamily (w &&& m) = fieldFamily w &&& fieldFamily m := BitVec.extractLsb'_and
  rw [← h, hand, hm, and_ones4]

theorem fieldN_of_match (hm : fieldN m = 0xF#4) (h : w &&& m = p) : fieldN w = fieldN p := by
  have hand : fieldN (w &&& m) = fieldN w &&& fieldN m := BitVec.extractLsb'_and
  rw [← h, hand, hm, and_ones4]

theorem fieldKk_of_match (hm : fieldKk m = 0xFF#8) (h : w &&& m = p) : fieldKk w = fieldKk p := by
  have hand : fieldKk (w &&& m) = fieldKk w &&& fieldKk m := BitVec.extractLsb'_and
  rw [← h, hand, hm]
  exact BitVec.and_allOnes.symm

end

/-- Every mask of the map covers the family, and beside it what the second level of that family compares. -/
theorem mask_covers : ∀ row ∈ opcodeMap, fieldFamily row.mask = 0xF#4 ∧
    (row.pattern.toNat / 4096 = 0 → row.mask = 0xFFFF#16) ∧
    (row.pattern.toNat / 4096 ∈ [5, 8, 9] → fieldN row.mask = 0xF#4) ∧
    (row.pattern.toNat / 4096 ∈ [0xE, 0xF] → fieldKk row.mask = 0xFF#8) := by
  decide

theorem pattern_decodes : ∀ row ∈ opcodeMap, decodeWord row.pattern ≠ .rejected (.unknownOpcode row.pattern) := by
  decide

/-- A word that selects a row is legal as the row's pattern is: the two agree in all that the table of illegal words asks. -/
theorem not_rejected_of_match {w : Word} {row : OpcodeRow} (hrow : row ∈ opcodeMap) (h : w &&& row.mask = row.pattern) :
    decodeWord w ≠ .rejected (.unknownOpcode w) := by
  obtain ⟨hfamily, hword, hn, hkk⟩ := mask_covers row hrow
  have hf : w.toNat / 4096 = row.pattern.toNat / 4096 := by
    rw [← fieldFamily_toNat, ← fieldFamily_toNat, fieldFamily_of_match hfamily h]
  have hn' (hm : row.pattern.toNat / 4096 ∈ [5, 8, 9]) : w.toNat % 16 = row.pattern.toNat % 16 := by
    rw [← fieldN_toNat, ← fieldN_toNat, fieldN_of_match (hn hm) h]
  have hkk' (hm : row.pattern.toNat / 4096 ∈ [0xE, 0xF]) : w.toNat % 256 = row.pattern.toNat % 256 := by
    rw [← fieldKk_toNat, ← fieldKk_toNat, fieldKk_of_match (hkk hm) h]
  refine fun hreject => pattern_decodes row hrow ?_
  rw [illegalWords] at hreject ⊢
  rw [hf] at hreject
  rcases hreject with ⟨he, h1, h2⟩ | ⟨he, h1⟩ | ⟨he, h1⟩ | ⟨he, h1⟩ | ⟨he, h1⟩ | ⟨he, h1⟩
  · have hw : w = row.pattern := by
      rw [← h, hword he]
      exact BitVec.and_allOnes.symm
    exact .inl ⟨he, hw ▸ h1, hw ▸ h2⟩
  · exact .inr (.inl ⟨he, hn' (by simp [he]) ▸ h1⟩)
  · exact .inr (.inr (.inl ⟨he, hn' (by simp [he]) ▸ h1⟩))
  · exact .inr (.inr (.inr (.inl ⟨he, hn' (by simp [he]) ▸ h1⟩)))
  · exact .inr (.inr (.inr (.inr (.inl ⟨he, hkk' (by simp [he]) ▸ h1⟩))))
  · exact .inr (.inr (.inr (.inr (.inr ⟨he, hkk' (by simp [he]) ▸ h1⟩))))

/-- The decoder rejects a word under its own name. -/
theorem rejected_eq {w : Word} {e : DecodeError} (h : decodeWord w = .rejected e) : e = .unknownOpcode w := by
  rcases nibble_cases (fieldFamily w) with
    hf | hf | hf | hf | hf | hf | hf | hf | hf | hf | hf | hf | hf | hf | hf | hf
  · rw [decodeWord_family0 hf, decodeFamily0] at h
    split_ifs at h
    cases h
    rfl
  · cases (decodeWord_family1 hf).symm.trans h
  · cases (decodeWord_family2 hf).symm.trans h
  · cases (decodeWord_family3 hf).symm.trans h
  · cases (decodeWord_family4 hf).symm.trans h
  · rw [decodeWord_family5 hf, decodeFamily5] at h
    split_ifs at h
    cases h
    rfl
  · cases (decodeWord_family6 hf).symm.trans h
  · cases (decodeWord_family7 hf).symm.trans h
  · rw [decodeWord_family8 hf, decodeFamily8] at h
    split_ifs at h
    cases h
    rfl
  · rw [decodeWord_family9 hf, decodeFamily9] at h
    split_ifs at h
    cases h
    rfl
  · cases (decodeWord_familyA hf).symm.trans h
  · cases (decodeWord_familyB hf).symm.trans h
  · cases (decodeWord_familyC hf).symm.trans h
  · cases (decodeWord_familyD hf).symm.trans h
  · rw [decodeWord_familyE hf, decodeFamilyE] at h
    split_ifs at h
    cases h
    rfl
  · rw [decodeWord_familyF hf, decodeFamilyF] at h
    split_ifs at h
    cases h
    rfl

/-- A word that decodes selects the row of its instruction. -/
theorem matches_of_decodes {w : Word} {i : Instr} (h : decodeWord w = .instr i) :
    w &&& (rowOf i).mask = (rowOf i).pattern := by
  obtain ⟨hw, -⟩ := encodeOfDecode w i h
  rw [← hw, encode_matches]

/-- Settles O3: a word that selects a row is legal, and the instruction it decodes to has its row; the rows are disjoint,
so that is the same one. A word that decodes selects the row of its instruction, so one that selects none is rejected. -/
theorem decoderIsOpcodeMap : Obligations.DecoderIsOpcodeMap := by
  refine ⟨fun w row hrow h => ?_, fun w hnone => ?_, fun w row row' hrow hrow' h h' => row_unique hrow hrow' h h'⟩
  · cases hd : decodeWord w with
    | instr i => exact ⟨i, rfl, congrArg OpcodeRow.mnemonic (row_unique (rowOf_mem i) hrow (matches_of_decodes hd) h)⟩
    | rejected e => exact absurd (rejected_eq hd ▸ hd) (not_rejected_of_match hrow h)
  · cases hd : decodeWord w with
    | instr i => exact absurd (matches_of_decodes hd) (hnone _ (rowOf_mem i))
    | rejected e => rw [rejected_eq hd]

/-- Settles O5: each word decodes by evaluation. -/
theorem decodedWords : Obligations.DecodedWords := by
  unfold Obligations.DecodedWords WordOf
  decide

end Sys2Proof.EncodingProofs
end

section
/-! The invariant (10_state.md): every named update of the state keeps it, so every instruction and every command of the
environment does. -/

namespace Sys2Proof.InvariantProofs

open Sys2Proof Sys2Proof.Machine

/-! ### The named updates -/

section
variable {s : State}

theorem inv_writeByte (h : s.Inv) (a : Nat) (b : Byte) : (s.writeByte a b).Inv :=
  { h with mem_wf := s.writeByte_wf a b h.mem_wf }

theorem inv_writeV (h : s.Inv) (r : Reg) (b : Byte) : (s.writeV r b).Inv := { h with }

theorem inv_setI (h : s.Inv) (n : Nat) : (s.setI n).Inv := { h with i_lt := addressWord_lt n }

theorem inv_setPc (h : s.Inv) (n : Nat) : (s.setPc n).Inv := { h with pc_lt := addressWord_lt n }

theorem inv_setDt (h : s.Inv) (b : Byte) : (s.setDt b).Inv := { h with }

theorem inv_setSt (h : s.Inv) (b : Byte) : (s.setSt b).Inv := { h with }

theorem inv_setKeys (h : s.Inv) (p : Vector Bool 16) : (s.setKeys p).Inv := { h with }

theorem inv_drawn (h : s.Inv) : s.drawn.Inv := { h with }

theorem inv_setDisplay (h : s.Inv) {d : Display} (hd : d.wf = true) : (s.setDisplay d).Inv := { h with display_wf := hd }

theorem inv_advance (h : s.Inv) : s.advance.Inv := { h with pc_lt := addressWord_lt _, boot := nofun }

theorem inv_setPending (h : s.Inv) (l : List Command) : State.Inv { s with pending := l } := { h with }

/-- Ending a wait keeps the invariant, and so does a wait that begins while the machine is not Halted, out of boot. -/
theorem inv_setWait_none (h : s.Inv) : (s.setWait none).Inv :=
  { h with not_both := .inl rfl, boot := fun hl => ⟨rfl, (h.boot hl).2⟩ }

theorem inv_setWait (h : s.Inv) (hf : s.fault = none) (hl : s.loadable = false) (w : Option Reg) : (s.setWait w).Inv :=
  { h with not_both := .inr hf, boot := fun hl' => absurd hl' (by simp [hl]) }

/-- An error taken while the machine is not waiting, out of boot, keeps the invariant. -/
theorem inv_raise (h : s.Inv) (hw : s.wait = none) (hl : s.loadable = false) (e : ErrorCode) (op : Word) :
    (s.raise e op).Inv :=
  { h with not_both := .inl hw, boot := fun hl' => absurd hl' (by simp [hl]) }

theorem inv_skipIf (h : s.Inv) (c : Bool) : (s.skipIf c).Inv := by
  cases c with
  | false => exact h
  | true => exact inv_setPc h _

theorem inv_aluFlag (h : s.Inv) (x y : Reg) (flag f : Byte → Byte → Byte) : (s.aluFlag x y flag f).Inv :=
  inv_writeV (inv_writeV h _ _) _ _

theorem inv_storeRegs (h : s.Inv) (n : Nat) : (s.storeRegs n).Inv := by
  induction n with
  | zero => exact h
  | succ k ih => exact inv_writeByte ih _ _

theorem inv_loadRegs (h : s.Inv) (n : Nat) : (s.loadRegs n).Inv := by
  induction n with
  | zero => exact h
  | succ k ih => exact inv_writeV ih _ _

theorem inv_writeBytes (h : s.Inv) (a : Nat) (l : List Byte) : (s.writeBytes a l).Inv := by
  induction l generalizing s a with
  | nil => exact h
  | cons b rest ih => exact ih (inv_writeByte h a b) (a + 1)

/-- A push keeps the invariant: the pc it pushes is below 4096. -/
theorem inv_push (h : s.Inv) (hsp : s.sp.val < 16) :
    State.Inv { s with stack := s.stack.set s.sp.val s.pc hsp, sp := ⟨s.sp.val + 1, by omega⟩ } :=
  { h with
    stack_lt := fun k hk => by
      rw [Vector.getElem_set]
      split
      · exact h.pc_lt
      · exact h.stack_lt k hk }

end

/-! ### Instructions -/

/-- Every instruction keeps the invariant where a step executes it: Running and out of boot. -/
theorem exec_keeps_inv {i : Instr} {s t : State} (hs : s.Inv) (hw : s.wait = none) (hf : s.fault = none)
    (hl : s.loadable = false) (h : exec i s = .next t) : t.Inv := by
  cases i with
  | ret =>
    obtain ⟨-, he⟩ | ⟨hp, he⟩ := execRet_cases s <;> cases he.symm.trans h
    · exact inv_raise hs hw hl _ _
    · exact { hs with pc_lt := addressWord_lt _ }
  | call nnn =>
    obtain ⟨-, he⟩ | ⟨hp, he⟩ := execCall_cases nnn s <;> cases he.symm.trans h
    · exact inv_raise hs hw hl _ _
    · exact inv_setPc (inv_push hs hp) _
  | jp nnn | jpV0 nnn => cases h; exact inv_setPc hs _
  | seImm x kk | sneImm x kk => cases h; exact inv_skipIf hs _
  | seReg x y | sneReg x y => cases h; exact inv_skipIf hs _
  | skp x | sknp x => cases h; exact inv_skipIf hs _
  | ldImm x kk | addImm x kk => cases h; exact inv_writeV hs _ _
  | ldReg x y | orReg x y | andReg x y | xorReg x y => cases h; exact inv_writeV hs _ _
  | addReg x y | subReg x y | shr x y | subnReg x y | shl x y => cases h; exact inv_aluFlag hs _ _ _ _
  | ldI nnn => cases h; exact inv_setI hs _
  | addI x | ldF x => cases h; exact inv_setI hs _
  | rnd x kk => cases h; exact inv_writeV (inv_drawn hs) _ _
  | cls => cases h; exact inv_setDisplay hs (Display.wf_clear _ hs.display_wf)
  | drw x y n => cases h; exact inv_writeV (inv_setDisplay hs (s.drawRows_wf _ _ _ hs.display_wf)) _ _
  | ldVxDt x => cases h; exact inv_writeV hs _ _
  | ldVxK x => cases h; exact inv_setWait hs hf hl _
  | ldDtVx x => cases h; exact inv_setDt hs _
  | ldStVx x => cases h; exact inv_setSt hs _
  | ldB x => cases h; exact inv_writeByte (inv_writeByte (inv_writeByte hs _ _) _ _) _ _
  | stRegs x => cases h; exact inv_storeRegs hs _
  | ldRegs x => cases h; exact inv_loadRegs hs _

/-! ### Commands -/

theorem stepCommand_keeps_inv {s t : State} (hs : s.Inv) (h : stepCommand s = .next t) : t.Inv := by
  obtain ⟨-, he⟩ | ⟨-, -, he⟩ | ⟨i, hf, hw, -, he⟩ | ⟨e, -, hw, -, he⟩ := stepCommand_cases s
  · cases he.symm.trans h; exact hs
  · cases he.symm.trans h; exact hs
  · exact exec_keeps_inv (inv_advance hs) hw hf rfl (he.symm.trans h)
  · cases he.symm.trans h; exact inv_raise (inv_advance hs) hw rfl _ _

/-- The reset state meets the invariant, and the command `reset` keeps only the display of the fields it speaks of. -/
theorem inv_reset : State.reset.Inv :=
  ⟨Memory.wf_reset, by decide, by decide, by decide, by decide, .inl rfl, fun _ => ⟨rfl, rfl⟩⟩

theorem inv_resetCore {s : State} (h : s.Inv) : s.resetCore.Inv := { inv_reset with display_wf := h.display_wf }

theorem loadProgram_keeps_inv {l : List Byte} {s t : State} (hs : s.Inv) (h : loadProgram l s = .next t) : t.Inv := by
  obtain ⟨-, he⟩ | ⟨hl, -, he⟩ | ⟨-, -, -, he⟩ := loadProgram_cases l s <;> cases he.symm.trans h
  · exact { hs with not_both := .inl (hs.boot hl).1, boot := nofun }
  · exact { inv_writeBytes hs programBase l with boot := nofun }

theorem inv_tick {s : State} (h : s.Inv) : s.tick.Inv := by
  by_cases hf : s.fault = none
  · rw [s.tick_running hf]; exact { h with }
  · rw [s.tick_halted hf]; exact h

theorem inv_keyDown {s : State} (h : s.Inv) (k : Fin 16) : (s.keyDown k).Inv := by
  obtain he | ⟨r, -, -, he⟩ := s.keyDown_cases k <;> rw [he]
  · exact h
  · exact inv_setWait_none (inv_writeV h r _)

theorem issue_keeps_inv {c : Command} {s t : State} (hs : s.Inv) (h : issue c s = .next t) : t.Inv := by
  cases c with
  | reset => cases h; exact inv_resetCore hs
  | loadProgram bytes => exact loadProgram_keeps_inv hs h
  | step => exact stepCommand_keeps_inv hs h
  | tick => cases h; exact inv_tick hs
  | keyDown k => cases h; exact inv_keyDown hs k
  | setKeys p => cases h; exact inv_setKeys hs p

/-- Settles O12: a move of the machine is `step` or its oldest pending command, and both keep the invariant. -/
theorem stepKeepsInvariant : Obligations.StepKeepsInvariant := by
  intro s t hs h
  cases hp : s.pending with
  | nil => exact stepCommand_keeps_inv hs ((step_nil hp).symm.trans h)
  | cons c rest => exact issue_keeps_inv (inv_setPending hs rest) ((step_cons hp).symm.trans h)

/-- Settles O11: the reset values meet each part of the invariant. -/
theorem resetMeetsInvariant : Obligations.ResetMeetsInvariant := inv_reset

/-! ### Every command answers -/

/-- A command is answered by a next state, but for a load outside boot. -/
theorem issue_answers (c : Command) (s : State) : (∃ t, issue c s = .next t) ∨
    (issue c s = .refused .loadOutsideBoot ∧ s.loadable = false ∧ ∃ bytes, c = .loadProgram bytes) := by
  cases c with
  | loadProgram bytes =>
    obtain ⟨hl, he⟩ | ⟨-, -, he⟩ | ⟨-, -, -, he⟩ := loadProgram_cases bytes s
    · exact .inr ⟨he, hl, bytes, rfl⟩
    · exact .inl ⟨_, he⟩
    · exact .inl ⟨_, he⟩
  | step => obtain ⟨t, h, -⟩ := stepCommand_next s; exact .inl ⟨t, h⟩
  | reset | tick | keyDown _ | setKeys _ => exact .inl ⟨_, rfl⟩

/-- Settles O10: `stepCommand_next` and `issue_answers` for the two kinds of move, and `exec_next` for the instructions. -/
theorem everyStepAnswers : Obligations.EveryStepAnswers := by
  refine ⟨fun s => ?_, fun i s => ?_⟩
  · cases hp : s.pending with
    | nil =>
      obtain ⟨t, h, -⟩ := stepCommand_next s
      exact .inl ⟨t, (step_nil hp).trans h⟩
    | cons c rest =>
      rw [step_cons hp]
      obtain h | ⟨h, hl, bytes, rfl⟩ := issue_answers c { s with pending := rest }
      · exact .inl h
      · exact .inr ⟨h, hl, bytes, rest, rfl⟩
  · obtain ⟨t, h, -⟩ := exec_next i s
    exact ⟨t, h⟩

end Sys2Proof.InvariantProofs
end

section
/-! Canonical memories (10_state.md): a canonical list of cells is determined by its contents. -/

namespace Sys2Proof.MemoryProofs

open Sys2Proof Sys2Proof.Machine

/-- The parts of the canonical form of a list with a first cell. -/
theorem wfFrom_cons_iff {low a : Nat} {b : Byte} {m : Memory} :
    Memory.wfFrom low ((a, b) :: m) = true ↔
      low ≤ a ∧ a < memSize ∧ b ≠ resetByte a ∧ Memory.wfFrom (a + 1) m = true := by
  simp [Memory.wfFrom, and_assoc]

theorem get_cons_self (a : Nat) (b : Byte) (m : Memory) : Memory.get ((a, b) :: m) a = b := if_pos rfl

theorem get_cons_ne {a k : Nat} (b : Byte) (m : Memory) (h : a ≠ k) : Memory.get ((a, b) :: m) k = Memory.get m k :=
  if_neg h

/-- A listed cell of one memory is listed in the other: it differs from its reset contents, which the other would read. -/
theorem head_le_of_get_eq {low low' a a' : Nat} {b b' : Byte} {m m' : Memory}
    (h : Memory.wfFrom low ((a, b) :: m) = true) (h' : Memory.wfFrom low' ((a', b') :: m') = true)
    (hget : ∀ k, k < 4096 → Memory.get ((a, b) :: m) k = Memory.get ((a', b') :: m') k) : a' ≤ a := by
  obtain ⟨-, ha, hne, -⟩ := wfFrom_cons_iff.mp h
  obtain ⟨-, hb', hne', hm'⟩ := wfFrom_cons_iff.mp h'
  by_contra hlt
  have hbelow : Memory.get ((a', b') :: m') a = resetByte a :=
    Memory.get_below _ a' (wfFrom_cons_iff.mpr ⟨le_rfl, hb', hne', hm'⟩) a (by omega)
  exact hne (by rw [← get_cons_self a b m, hget a ha, hbelow])

/-- A memory that lists a cell does not read as after reset. -/
theorem exists_get_ne_reset {low a : Nat} {b : Byte} {m : Memory} (h : Memory.wfFrom low ((a, b) :: m) = true) :
    ∃ k, k < 4096 ∧ Memory.get ((a, b) :: m) k ≠ Memory.get [] k := by
  obtain ⟨-, ha, hne, -⟩ := wfFrom_cons_iff.mp h
  exact ⟨a, ha, by rw [get_cons_self]; exact hne⟩

theorem eq_of_get_eq {m m' : Memory} {low low' : Nat} (h : Memory.wfFrom low m = true) (h' : Memory.wfFrom low' m' = true)
    (hget : ∀ k, k < 4096 → Memory.get m k = Memory.get m' k) : m = m' := by
  induction m generalizing m' low low' with
  | nil =>
    cases m' with
    | nil => rfl
    | cons c' rest' =>
      obtain ⟨k, hk, hne⟩ := exists_get_ne_reset h'
      exact absurd (hget k hk).symm hne
  | cons c rest ih =>
    obtain ⟨a, b⟩ := c
    cases m' with
    | nil =>
      obtain ⟨k, hk, hne⟩ := exists_get_ne_reset h
      exact absurd (hget k hk) hne
    | cons c' rest' =>
      obtain ⟨a', b'⟩ := c'
      have ha : a = a' := le_antisymm (head_le_of_get_eq h' h fun k hk => (hget k hk).symm) (head_le_of_get_eq h h' hget)
      subst ha
      obtain ⟨-, hlt, -, hr⟩ := wfFrom_cons_iff.mp h
      obtain ⟨-, -, -, hr'⟩ := wfFrom_cons_iff.mp h'
      have hb : b = b' := by simpa only [get_cons_self] using hget a hlt
      have hrest : rest = rest' := ih hr hr' fun k hk => by
        by_cases hak : a = k
        · rw [Memory.get_below _ _ hr k (by omega), Memory.get_below _ _ hr' k (by omega)]
        · simpa only [get_cons_ne _ _ hak] using hget k hk
      rw [hb, hrest]

/-- Settles O13, by induction on the two lists: each first cell is the lowest that differs from its reset contents. -/
theorem canonicalMemoryIsUnique : Obligations.CanonicalMemoryIsUnique := fun _ _ h h' hget => eq_of_get_eq h h' hget

end Sys2Proof.MemoryProofs
end

section
/-! What each instruction can change and what it depends on: the general registers (R22), the other fields of the state,
and the error registers (R261). -/

namespace Sys2Proof.FrameProofs

open Sys2Proof Sys2Proof.Machine Sys2Proof.Statements

/-! ### Operations that change one field -/

/-- A skip changes the pc only. -/
theorem skipIf_eq (s : State) (c : Bool) : s.skipIf c = { s with pc := (s.skipIf c).pc } := by
  cases c <;> rfl

@[simp] theorem readV_skipIf (s : State) (c : Bool) (r : Reg) : (s.skipIf c).readV r = s.readV r := by
  rw [skipIf_eq]; rfl

@[simp] theorem readV_storeRegs (s : State) (n : Nat) (r : Reg) : (s.storeRegs n).readV r = s.readV r := by
  rw [State.storeRegs_eq]; rfl

theorem mem_upTo {r x : Reg} : r ∈ upTo x ↔ r ≤ x := by simp [upTo]

/-- A register that is neither VF nor Vx is as before. -/
theorem readV_aluFlag_ne (s : State) {x r : Reg} (y : Reg) (flag f : Byte → Byte → Byte) (h : r ∉ [15, x]) :
    (s.aluFlag x y flag f).readV r = s.readV r := by
  obtain ⟨h15, hx⟩ : r ≠ 15 ∧ r ≠ x := by simpa using h
  rw [State.aluFlag_eq, State.readV_writeV_ne _ hx, State.readV_writeV_ne _ h15]

/-! ### Registers written -/

/-- Settles O14: each meaning writes registers through `writeV` at those of its row, through `loadRegs`, or not at all. -/
theorem onlyListedRegistersWritten : Obligations.OnlyListedRegistersWritten := by
  intro i s t h r hr
  cases i with
  | ret => obtain ⟨-, he⟩ | ⟨hp, he⟩ := execRet_cases s <;> cases he.symm.trans h <;> rfl
  | call nnn => obtain ⟨-, he⟩ | ⟨hp, he⟩ := execCall_cases nnn s <;> cases he.symm.trans h <;> rfl
  | seImm x kk | sneImm x kk => cases h; exact readV_skipIf s _ r
  | seReg x y | sneReg x y => cases h; exact readV_skipIf s _ r
  | skp x | sknp x => cases h; exact readV_skipIf s _ r
  | ldImm x kk | addImm x kk => cases h; exact State.readV_writeV_ne s (List.ne_of_not_mem_cons hr) _
  | ldReg x y | orReg x y | andReg x y | xorReg x y =>
    cases h; exact State.readV_writeV_ne s (List.ne_of_not_mem_cons hr) _
  | addReg x y | subReg x y | shr x y | subnReg x y | shl x y => cases h; exact readV_aluFlag_ne s y _ _ hr
  | rnd x kk => cases h; exact State.readV_writeV_ne s.drawn (List.ne_of_not_mem_cons hr) _
  | drw x y n => cases h; exact State.readV_writeV_ne (s.setDisplay _) (List.ne_of_not_mem_cons hr) _
  | ldVxDt x => cases h; exact State.readV_writeV_ne s (List.ne_of_not_mem_cons hr) _
  | stRegs x => cases h; exact readV_storeRegs s _ r
  | ldRegs x =>
    cases h
    have hlt : ¬ r.val < x.val + 1 := fun hlt => hr (mem_upTo.mpr (Nat.lt_succ_iff.mp hlt))
    rw [State.readV_loadRegs s _ x.isLt, if_neg hlt]
  | cls | jp _ | ldI _ | jpV0 _ | ldVxK _ | ldDtVx _ | ldStVx _ | addI _ | ldF _ | ldB _ => cases h; rfl

/-! ### Registers read: each operation commutes with the write of a register that it does not read -/

section
variable (s : State) {r : Reg} (b : Byte)

/-- A write of Vx hides an earlier write of Vx and commutes with that of another register. -/
theorem writeV_writeV_eq (x : Reg) (c : Byte) :
    (s.writeV r b).writeV x c = if r ∈ [x] then s.writeV x c else (s.writeV x c).writeV r b := by
  by_cases h : r = x
  · rw [if_pos (by simp [h]), h, State.writeV_writeV_self]
  · rw [if_neg (by simp [h]), s.writeV_comm h]

theorem skipIf_writeV (c : Bool) : (s.writeV r b).skipIf c = (s.skipIf c).writeV r b := by
  cases c <;> rfl

/-- An ALU instruction with a flag hides the write of VF and commutes with that of a register that is no operand. -/
theorem aluFlag_writeV {x y : Reg} (flag f : Byte → Byte → Byte) (hx : r ≠ x) (hy : r ≠ y) :
    (s.writeV r b).aluFlag x y flag f =
      if r ∈ [15, x] then s.aluFlag x y flag f else (s.aluFlag x y flag f).writeV r b := by
  simp only [State.aluFlag_eq, State.readV_writeV_ne s hx.symm, State.readV_writeV_ne s hy.symm]
  by_cases h15 : r = 15
  · rw [h15, State.writeV_writeV_self, if_pos (List.mem_cons_self ..)]
  · rw [if_neg (by simp [h15, hx]), s.writeV_comm h15, State.readV_writeV_ne _ hx.symm, State.readV_writeV_ne _ hy.symm,
      State.writeV_comm _ hx]

theorem drawRows_writeV (vx vy n : Nat) : (s.writeV r b).drawRows vx vy n = s.drawRows vx vy n := by
  induction n with
  | zero => rfl
  | succ k ih => simp only [State.drawRows, ih, State.readByte_writeV, State.ea_writeV]

/-- The stores of `Fx55` commute with the write of a register above those stored. -/
theorem storeRegs_writeV {n : Nat} (h : ∀ k, k < n → regAt k ≠ r) :
    (s.writeV r b).storeRegs n = (s.storeRegs n).writeV r b := by
  induction n with
  | zero => rfl
  | succ k ih =>
    simp only [State.storeRegs, ih fun j hj => h j (by omega), State.readV_writeV_ne s (h k (by omega))]
    rfl

/-- States with equal registers that agree in everything else are equal. -/
theorem eq_of_readV {s t : State} (hrest : s = { t with v := s.v }) (hv : ∀ q, s.readV q = t.readV q) : s = t := by
  rw [hrest, State.v_ext hv]

/-- The loads of `Fx65` hide the write of a register they load and commute with that of another one. -/
theorem loadRegs_writeV (x : Reg) : (s.writeV r b).loadRegs (x.val + 1) =
    if r ∈ upTo x then s.loadRegs (x.val + 1) else (s.loadRegs (x.val + 1)).writeV r b := by
  have hrest := State.loadRegs_eq (s.writeV r b) (x.val + 1)
  have hread := State.readV_loadRegs (s.writeV r b) (x.val + 1) x.isLt
  have hread' := s.readV_loadRegs (x.val + 1) x.isLt
  by_cases hr : r ≤ x
  · rw [if_pos (mem_upTo.mpr hr)]
    refine eq_of_readV (by rw [hrest, s.loadRegs_eq]; rfl) fun q => ?_
    rw [hread, hread']
    split
    · rfl
    · next hq =>
      have hne : q ≠ r := by rintro rfl; exact hq (Nat.lt_succ_iff.mpr hr)
      exact s.readV_writeV_ne hne b
  · rw [if_neg fun hm => hr (mem_upTo.mp hm)]
    refine eq_of_readV (by rw [hrest, s.loadRegs_eq]; rfl) fun q => ?_
    by_cases hq : q = r
    · have hlt : ¬ q.val < x.val + 1 := by rw [hq]; exact fun h => hr (Nat.lt_succ_iff.mp h)
      rw [hread, if_neg hlt, hq, State.readV_writeV_self, State.readV_writeV_self]
    · rw [hread, State.readV_writeV_ne _ hq, State.readV_writeV_ne _ hq, hread']
      rfl

theorem regAt_ne_of_not_mem_upTo {x : Reg} (h : r ∉ upTo x) {k : Nat} (hk : k < x.val + 1) : regAt k ≠ r := by
  rintro rfl
  exact h (mem_upTo.mpr ((Nat.mod_le k 16).trans (Nat.lt_succ_iff.mp hk)))

end

/-- A return reads no register. -/
theorem execRet_writeV {s t : State} (r : Reg) (b : Byte) (h : exec .ret s = .next t) :
    exec .ret (s.writeV r b) = .next (t.writeV r b) := by
  have hsp : (s.writeV r b).sp = s.sp := rfl
  obtain ⟨h0, he⟩ | ⟨hp, he⟩ := execRet_cases s <;> cases he.symm.trans h <;>
    obtain ⟨h0', he'⟩ | ⟨hp', he'⟩ := execRet_cases (s.writeV r b)
  · exact he'
  · omega
  · omega
  · exact he'

/-- A call reads no register. -/
theorem execCall_writeV {s t : State} {nnn : Word} (r : Reg) (b : Byte) (h : exec (.call nnn) s = .next t) :
    exec (.call nnn) (s.writeV r b) = .next (t.writeV r b) := by
  have hsp : (s.writeV r b).sp = s.sp := rfl
  obtain ⟨h0, he⟩ | ⟨hp, he⟩ := execCall_cases nnn s <;> cases he.symm.trans h <;>
    obtain ⟨h0', he'⟩ | ⟨hp', he'⟩ := execCall_cases nnn (s.writeV r b)
  · exact he'
  · omega
  · omega
  · exact he'

/-- Settles O15: each meaning is put together from operations that hide the change or commute with it. -/
theorem onlyListedRegistersRead : Obligations.OnlyListedRegistersRead := by
  intro i s t r b hr h
  cases i with
  | ret => exact execRet_writeV r b h
  | call nnn => exact execCall_writeV r b h
  | seImm x kk | sneImm x kk | skp x | sknp x =>
    have hx := s.readV_writeV_ne (List.ne_of_not_mem_cons hr).symm b
    cases h
    simp only [exec, execSeImm, execSneImm, execSkp, execSknp, hx, skipIf_writeV]
    rfl
  | seReg x y | sneReg x y =>
    obtain ⟨hx, hy⟩ : r ≠ x ∧ r ≠ y := by simpa [regsRead] using hr
    cases h
    simp only [exec, execSeReg, execSneReg, s.readV_writeV_ne hx.symm, s.readV_writeV_ne hy.symm, skipIf_writeV]
    rfl
  | ldImm x kk | ldVxDt x => cases h; exact congrArg Host.Outcome.next (writeV_writeV_eq s b x _)
  | rnd x kk => cases h; exact congrArg Host.Outcome.next (writeV_writeV_eq s.drawn b x _)
  | addImm x kk =>
    have hx := s.readV_writeV_ne (List.ne_of_not_mem_cons hr).symm b
    cases h
    simp only [exec, execAddImm, hx]
    exact congrArg Host.Outcome.next (writeV_writeV_eq s b x _)
  | ldReg x y =>
    have hy := s.readV_writeV_ne (List.ne_of_not_mem_cons hr).symm b
    cases h
    simp only [exec, execLdReg, State.aluPlain_eq, hy]
    exact congrArg Host.Outcome.next (writeV_writeV_eq s b x _)
  | orReg x y | andReg x y | xorReg x y =>
    obtain ⟨hx, hy⟩ : r ≠ x ∧ r ≠ y := by simpa [regsRead] using hr
    cases h
    simp only [exec, execOrReg, execAndReg, execXorReg, State.aluPlain_eq, s.readV_writeV_ne hx.symm,
      s.readV_writeV_ne hy.symm]
    exact congrArg Host.Outcome.next (writeV_writeV_eq s b x _)
  | addReg x y | subReg x y | subnReg x y =>
    obtain ⟨hx, hy⟩ : r ≠ x ∧ r ≠ y := by simpa [regsRead] using hr
    cases h
    exact congrArg Host.Outcome.next (aluFlag_writeV s b _ _ hx hy)
  | shr x y =>
    have hx := List.ne_of_not_mem_cons hr
    have hcomm := aluFlag_writeV s b shrFlag (fun a _ => a >>> 1) hx hx
    cases h
    exact congrArg Host.Outcome.next hcomm
  | shl x y =>
    have hx := List.ne_of_not_mem_cons hr
    have hcomm := aluFlag_writeV s b shlFlag (fun a _ => a <<< 1) hx hx
    cases h
    exact congrArg Host.Outcome.next hcomm
  | drw x y n =>
    obtain ⟨hx, hy⟩ : r ≠ x ∧ r ≠ y := by simpa [regsRead] using hr
    cases h
    simp only [exec, execDrw, s.readV_writeV_ne hx.symm, s.readV_writeV_ne hy.symm, drawRows_writeV]
    exact congrArg Host.Outcome.next
      (writeV_writeV_eq (s.setDisplay (s.drawRows (s.readV x).toNat (s.readV y).toNat n.val).1) b 15 _)
  | ldDtVx x | ldStVx x | addI x | ldF x | ldB x =>
    have hx := s.readV_writeV_ne (List.ne_of_not_mem_cons hr).symm b
    cases h
    simp only [exec, execLdDtVx, execLdStVx, execAddI, execLdF, execLdB, hx]
    rfl
  | jpV0 nnn =>
    have hx := s.readV_writeV_ne (List.ne_of_not_mem_cons hr).symm b
    cases h
    simp only [exec, execJpV0, hx]
    rfl
  | stRegs x =>
    cases h
    exact congrArg Host.Outcome.next (storeRegs_writeV s b fun k hk => regAt_ne_of_not_mem_upTo hr hk)
  | ldRegs x => cases h; exact congrArg Host.Outcome.next (loadRegs_writeV s b x)
  | cls | jp nnn | ldI nnn | ldVxK x => cases h; rfl

/-! ### The other fields -/

/-- Settles O16: each meaning is an update of the fields its row names, and leaves the others as they are. -/
theorem stateChangedOnlyByItsInstructions : Obligations.StateChangedOnlyByItsInstructions := by
  intro i s t h
  cases i with
  | ret => obtain ⟨-, he⟩ | ⟨hp, he⟩ := execRet_cases s <;> cases he.symm.trans h <;> simp
  | call nnn => obtain ⟨-, he⟩ | ⟨hp, he⟩ := execCall_cases nnn s <;> cases he.symm.trans h <;> simp
  | seImm x kk | sneImm x kk => cases h; rw [skipIf_eq]; simp
  | seReg x y | sneReg x y => cases h; rw [skipIf_eq]; simp
  | skp x | sknp x => cases h; rw [skipIf_eq]; simp
  | ldReg x y | orReg x y | andReg x y | xorReg x y => cases h; simp [State.aluPlain_eq]
  | addReg x y | subReg x y | shr x y | subnReg x y | shl x y => cases h; simp [State.aluFlag_eq]
  | ldB x => cases h; simp [State.storeAt]
  | stRegs x => cases h; rw [State.storeRegs_eq]; simp
  | ldRegs x => cases h; rw [State.loadRegs_eq]; simp
  | cls | jp _ | ldImm _ _ | addImm _ _ | ldI _ | jpV0 _ | rnd _ _ | drw _ _ _ | ldVxDt _ | ldVxK _ | ldDtVx _
  | ldStVx _ | addI _ | ldF _ => cases h; simp

/-- Settles O17: only a return and a call have a meaning that raises, and each says when. -/
theorem onlyCallAndReturnRaise : Obligations.OnlyCallAndReturnRaise := by
  intro i s t h hne
  cases i with
  | ret =>
    obtain ⟨h0, he⟩ | ⟨hp, he⟩ := execRet_cases s <;> cases he.symm.trans h
    · exact .inl ⟨rfl, h0, rfl⟩
    · exact absurd rfl hne
  | call nnn =>
    obtain ⟨h16, he⟩ | ⟨hp, he⟩ := execCall_cases nnn s <;> cases he.symm.trans h
    · exact .inr ⟨nnn, rfl, h16, rfl⟩
    · exact absurd rfl hne
  | seImm x kk | sneImm x kk => cases h; rw [skipIf_eq] at hne; exact absurd rfl hne
  | seReg x y | sneReg x y => cases h; rw [skipIf_eq] at hne; exact absurd rfl hne
  | skp x | sknp x => cases h; rw [skipIf_eq] at hne; exact absurd rfl hne
  | stRegs x => cases h; rw [State.storeRegs_eq] at hne; exact absurd rfl hne
  | ldRegs x => cases h; rw [State.loadRegs_eq] at hne; exact absurd rfl hne
  | cls | jp _ | ldImm _ _ | addImm _ _ | ldReg _ _ | orReg _ _ | andReg _ _ | xorReg _ _ | addReg _ _ | subReg _ _
  | shr _ _ | subnReg _ _ | shl _ _ | ldI _ | jpV0 _ | rnd _ _ | drw _ _ _ | ldVxDt _ | ldVxK _ | ldDtVx _ | ldStVx _
  | addI _ | ldF _ | ldB _ => cases h; exact absurd rfl hne

end Sys2Proof.FrameProofs
end

section
/-! The step (40_cycle_and_dispatch.md): what a `step` command runs, what it records for a word that is no instruction, the
pc it leaves, and the word the host places. -/

namespace Sys2Proof.StepProofs

open Sys2Proof Sys2Proof.Machine Sys2Proof.Statements Sys2Proof.EncodingProofs Sys2Proof.FrameProofs

/-! ### What a step runs -/

/-- A Running machine executes the instruction its two bytes decode to (R120, R121). -/
theorem stepCommand_of_fetched {s : State} {i : Instr} (hf : s.fault = none) (hw : s.wait = none)
    (hd : fetched s = .instr i) : stepCommand s = exec i s.advance := by
  have hd' : decodeWord s.fetchWord = .instr i := hd
  obtain ⟨hne, -⟩ | ⟨-, hne, -⟩ | ⟨j, -, -, hj, h⟩ | ⟨e, -, -, hj, -⟩ := stepCommand_cases s
  · exact absurd hf hne
  · exact absurd hw hne
  · cases hd'.symm.trans hj; exact h
  · cases hd'.symm.trans hj

/-- Settles O6: the move is the `step` command, on the state without it where it was pending. -/
theorem stepRunsDecodedInstruction : Obligations.StepRunsDecodedInstruction := by
  intro s i hf hw hd
  refine ⟨fun hp => ?_, fun rest hp => ?_⟩
  · rw [step_nil hp, stepCommand_of_fetched hf hw hd]; rfl
  · rw [step_cons hp]
    exact stepCommand_of_fetched (s := { s with pending := rest }) hf hw hd

/-- Taking an error records its word and the address before the pc, modulo 4096, and changes nothing else (R262). -/
theorem errorTaken_raise (s : State) (e : ErrorCode) (op : Word) : ErrorTaken e op s (s.raise e op) := by
  have hpc : ((s.raise e op).faultPc.toNat : Int) = ((s.pc.toNat : Int) - 2) % 4096 := by
    rw [State.raise_faultPc, BitVec.toNat_ofNat, memSize]
    omega
  exact ⟨rfl, hpc, fun _ _ => rfl, fun _ => rfl⟩

/-- The fetched word as a number (R64). -/
theorem fetchWord_eq_ofNat (s : State) : s.fetchWord =
    BitVec.ofNat 16 ((s.readByte s.pc.toNat).toNat * 256 + (s.readByte (s.pc.toNat + 1)).toNat) := by
  rw [State.fetchWord, ← wordOfBytes_toNat, BitVec.ofNat_toNat, BitVec.setWidth_eq]

/-- Settles O7: the four ends of `stepCommand_cases`, the state of the last two being the one after the fetch. -/
theorem stepDoesOneOfThree : Obligations.StepDoesOneOfThree := by
  intro s
  show (_ → stepCommand s = _) ∧ (_ → _ → stepCommand s = _) ∧ _
  simp only [← fetchWord_eq_ofNat]
  obtain ⟨hne, h⟩ | ⟨hf, hw, h⟩ | ⟨i, hf, hw, hd, h⟩ | ⟨e, hf, hw, hd, h⟩ := stepCommand_cases s
  · exact ⟨fun _ => h, fun hf => absurd hf hne, fun hf => absurd hf hne⟩
  · exact ⟨fun _ => h, fun _ _ => h, fun _ hw' => absurd hw' hw⟩
  · refine ⟨fun hne => absurd hf hne, fun _ hne => absurd hw hne, fun _ _ => ⟨fun j hj => ?_, fun e he => ?_⟩⟩
    · cases hd.symm.trans hj; exact h
    · cases hd.symm.trans he
  · refine ⟨fun hne => absurd hf hne, fun _ hne => absurd hw hne, fun _ _ => ⟨fun j hj => ?_, fun _ _ => ?_⟩⟩
    · cases hd.symm.trans hj
    · exact ⟨_, h, errorTaken_raise s.advance _ _⟩

/-! ### The pc after a step (R29) -/

theorem advance_pc_toNat (s : State) : s.advance.pc.toNat = (s.pc.toNat + 2) % 4096 := addressWord_toNat _

theorem skipIf_advance_pc (s : State) (c : Bool) : (s.advance.skipIf c).pc.toNat = skipTarget s.pc.toNat c := by
  cases c with
  | false => exact advance_pc_toNat s
  | true =>
    show (addressWord (s.advance.pc.toNat + 2)).toNat = (s.pc.toNat + 4) % 4096
    rw [addressWord_toNat, advance_pc_toNat, memSize]
    omega

theorem setPc_toNat_of_addressOk (s : State) {nnn : Word} (h : addressOk nnn = true) :
    (s.setPc nnn.toNat).pc.toNat = nnn.toNat :=
  (addressWord_toNat _).trans (Nat.mod_eq_of_lt ((addressOk_iff nnn).mp h))

/-- The pc after an executed instruction is that of the table. -/
theorem exec_advance_pc {s t : State} {i : Instr} (hd : fetched s = .instr i) (h : exec i s.advance = .next t) :
    t.pc.toNat = pcAfterStep s := by
  have hpc := advance_pc_toNat s
  have haddr : WellFormed i := (encodeOfDecode s.fetchWord i hd).2
  rw [pcAfterStep, hd]
  cases i with
  | ret =>
    dsimp only
    obtain ⟨h0, he⟩ | ⟨hp, he⟩ := execRet_cases s.advance <;> cases he.symm.trans h
    · have h0' : ¬ 0 < s.sp.val := by rw [← State.advance_sp, h0]; exact lt_irrefl 0
      rw [dif_neg h0']
      exact hpc
    · have hp' : 0 < s.sp.val := hp
      rw [dif_pos hp']
      exact addressWord_toNat _
  | call nnn =>
    obtain ⟨h0, he⟩ | ⟨hp, he⟩ := execCall_cases nnn s.advance <;> cases he.symm.trans h
    · have h0' : s.sp.val = 16 := h0
      exact hpc.trans (if_pos h0').symm
    · have hp' : s.sp.val ≠ 16 := Nat.ne_of_lt hp
      exact (setPc_toNat_of_addressOk _ haddr).trans (if_neg hp').symm
  | jp nnn => cases h; exact setPc_toNat_of_addressOk _ haddr
  | jpV0 nnn => cases h; exact addressWord_toNat _
  | seImm x kk | sneImm x kk => cases h; exact skipIf_advance_pc s _
  | seReg x y | sneReg x y => cases h; exact skipIf_advance_pc s _
  | skp x | sknp x => cases h; exact skipIf_advance_pc s _
  | stRegs x => cases h; rw [State.storeRegs_eq]; exact hpc
  | ldRegs x => cases h; rw [State.loadRegs_eq]; exact hpc
  | cls | ldImm _ _ | addImm _ _ | ldReg _ _ | orReg _ _ | andReg _ _ | xorReg _ _ | addReg _ _ | subReg _ _
  | shr _ _ | subnReg _ _ | shl _ _ | ldI _ | rnd _ _ | drw _ _ _ | ldVxDt _ | ldVxK _ | ldDtVx _ | ldStVx _
  | addI _ | ldF _ | ldB _ => cases h; exact hpc

theorem advance_pc_of_rejected {s : State} {e : DecodeError} (hd : fetched s = .rejected e) :
    s.advance.pc.toNat = pcAfterStep s := by
  rw [pcAfterStep, hd]
  exact advance_pc_toNat s

/-- Settles O9: a step that executes nothing leaves the pc, an illegal word leaves it advanced, and `exec_advance_pc` is the
rest of the table. -/
theorem pcAfterStep : Obligations.PcAfterStep := by
  intro s hp
  rw [step_nil hp]
  obtain ⟨hne, h⟩ | ⟨hf, hw, h⟩ | ⟨i, hf, hw, hd, h⟩ | ⟨e, hf, hw, hd, h⟩ := stepCommand_cases s
  · exact ⟨s, h, by rw [if_pos (.inl hne)]⟩
  · exact ⟨s, h, by rw [if_pos (.inr hw)]⟩
  · obtain ⟨t, ht, -⟩ := exec_next i s.advance
    exact ⟨t, h.trans ht, by rw [if_neg (by simp [hf, hw]), exec_advance_pc hd ht]⟩
  · exact ⟨_, h, by rw [if_neg (by simp [hf, hw]), State.raise_pc, advance_pc_of_rejected hd]⟩

/-! ### The word the host places -/

/-- A word is laid out as its two bytes and read back from them, high byte first (R64). -/
theorem wordOfBytes_split (op : Word) : wordOfBytes (op.extractLsb' 8 8) (op.extractLsb' 0 8) = op := by
  apply BitVec.eq_of_toNat_eq
  rw [wordOfBytes_toNat, BitVec.extractLsb'_toNat, BitVec.extractLsb'_toNat, Nat.shiftRight_eq_div_pow]
  omega

/-- The word that is placed is the word that is fetched, at the top of memory too: its two cells are different ones. -/
theorem fetchWord_placeWord {s : State} (hm : Memory.wf s.mem = true) (op : Word) : (s.placeWord op).fetchWord = op := by
  have hcells : s.pc.toNat % memSize ≠ (s.pc.toNat + 1) % memSize := by rw [memSize]; omega
  have hm' := s.writeByte_wf s.pc.toNat (op.extractLsb' 8 8) hm
  have hhigh : (s.placeWord op).readByte s.pc.toNat = op.extractLsb' 8 8 :=
    (State.readByte_writeByte _ _ _ _ hm').trans
      ((if_neg hcells).trans ((State.readByte_writeByte _ _ _ _ hm).trans (if_pos rfl)))
  have hlow : (s.placeWord op).readByte (s.pc.toNat + 1) = op.extractLsb' 0 8 :=
    (State.readByte_writeByte _ _ _ _ hm').trans (if_pos rfl)
  have hpc : (s.placeWord op).pc = s.pc := rfl
  rw [State.fetchWord, hpc, hhigh, hlow, wordOfBytes_split]

/-- The table's word is decoded as the word it is (R64, R91). -/
theorem decodeWord_of_decodeTableWord {nbits w : Nat} {i : Instr} (h : decodeTableWord nbits w = some i) :
    decodeWord (BitVec.ofNat 16 (w % 2 ^ nbits)) = .instr i := by
  have hd := decode_bytesOfWord (BitVec.ofNat 16 (w % 2 ^ nbits)) []
  rw [List.append_nil] at hd
  rw [decodeTableWord, tableBytes, hd] at h
  cases hi : decodeWord (BitVec.ofNat 16 (w % 2 ^ nbits)) with
  | instr j => rw [hi] at h; cases h; rfl
  | rejected e => rw [hi] at h; cases h

/-- Settles O8: the state with the word placed is Running with nothing pending, and fetches the word. -/
theorem placedWordRuns : Obligations.PlacedWordRuns := by
  intro s w i hm hd
  have hfetched : fetched (s.withFetchWord 16 w) = .instr i := by
    show decodeWord (s.placeWord _).fetchWord = _
    rw [fetchWord_placeWord hm, decodeWord_of_decodeTableWord hd]
  have hpc : (s.withFetchWord 16 w).pc = s.pc := rfl
  rw [step_nil rfl, stepCommand_of_fetched rfl rfl hfetched, ← hpc]
  rfl

end Sys2Proof.StepProofs
end

section
/-! The commands of the environment (48_timers_and_random.md, 47_keyboard_and_wait.md, 70_reset_and_hazards.md): tick,
key_down, reset, load_program and boot, and what they leave of a Halted or a waiting machine. -/

namespace Sys2Proof.CommandProofs

open Sys2Proof Sys2Proof.Machine Sys2Proof.Statements Sys2Proof.WaitProofs

/-! ### Tick -/

theorem toneLatch_toneCheck (st : Byte) : toneLatch (toneCheck st) = true ↔ 0 < st.toNat := by
  unfold toneCheck
  split
  · next h => exact iff_of_true rfl h
  · next h => exact iff_of_false Bool.false_ne_true h

section
variable {s : State}

theorem tick_dt (hf : s.fault = none) : s.tick.dt = countDown s.dt := by rw [s.tick_running hf]

theorem tick_st (hf : s.fault = none) : s.tick.st = countDown s.st := by rw [s.tick_running hf]

theorem tick_fault (s : State) : s.tick.fault = s.fault := by
  by_cases hf : s.fault = none
  · rw [s.tick_running hf]
  · rw [s.tick_halted hf]

theorem tick_tone (hf : s.fault = none) : s.tick.tone = true ↔ 0 < s.tick.st.toNat := by
  rw [tick_st hf, s.tick_running hf]
  exact toneLatch_toneCheck _

theorem tickSignal_running (hf : s.fault = none) : s.tickSignal = some (toneCheck s.tick.st) := by
  rw [tick_st hf]
  simp [State.tickSignal, State.halted, hf]

theorem tickSignal_halted (hf : s.fault ≠ none) : s.tickSignal = none := by
  simp [State.tickSignal, State.halted, Option.isSome_iff_ne_none, hf]

end

/-- Settles O22: the counting of a timer is `countDown`, and tone and signal are the check of ST after it. -/
theorem tickEffect : Obligations.TickEffect := by
  refine fun s => ⟨fun hf => ⟨congrArg _ (s.tick_halted hf), tickSignal_halted hf⟩, fun hf => ⟨s.tick, rfl, ?_⟩⟩
  have hdt : s.tick.dt.toNat = s.dt.toNat - 1 := by rw [tick_dt hf, countDown_toNat]
  have hst : s.tick.st.toNat = s.st.toNat - 1 := by rw [tick_st hf, countDown_toNat]
  have hzero {a b : Byte} (h : a.toNat = b.toNat - 1) (hb : b.toNat = 0) : a = b := BitVec.eq_of_toNat_eq (by omega)
  refine ⟨fun _ => hdt, hzero hdt, fun _ => hst, hzero hst, fun hpos => ⟨(tick_tone hf).mpr hpos, ?_⟩,
    fun h0 => ⟨?_, ?_⟩, fun r _ => ?_, fun a => ?_, ?_⟩
  · rw [tickSignal_running hf, toneCheck, if_pos hpos]
  · rw [← Bool.not_eq_true, tick_tone hf, h0]
    exact lt_irrefl 0
  · rw [tickSignal_running hf, toneCheck, if_neg (by omega)]
  · rw [s.tick_running hf]; rfl
  · rw [s.tick_running hf]; rfl
  · rw [s.tick_running hf]

theorem iterate_tick_fault (s : State) (n : Nat) : (State.tick^[n] s).fault = s.fault := by
  induction n with
  | zero => rfl
  | succ k ih => rw [Function.iterate_succ_apply', tick_fault, ih]

/-- Settles O23, by induction on the ticks: each takes 1 from a timer, and the last one checks ST. -/
theorem timersAfterTicks : Obligations.TimersAfterTicks := by
  intro s n hf
  induction n with
  | zero => exact ⟨rfl, rfl, nofun⟩
  | succ k ih =>
    obtain ⟨hdt, hst, -⟩ := ih
    have hfk : (State.tick^[k] s).fault = none := (iterate_tick_fault s k).trans hf
    have hst' : (State.tick^[k + 1] s).st.toNat = s.st.toNat - (k + 1) := by
      rw [Function.iterate_succ_apply', tick_st hfk, countDown_toNat, hst, Nat.sub_sub]
    refine ⟨?_, hst', fun _ => ?_⟩
    · rw [Function.iterate_succ_apply', tick_dt hfk, countDown_toNat, hdt, Nat.sub_sub]
    · rw [Function.iterate_succ_apply'] at hst' ⊢
      rw [tick_tone hfk, hst']
      omega

/-! ### Key-down -/

theorem keyDown_of_halted {s : State} (hf : s.fault ≠ none) (k : Fin 16) : s.keyDown k = s := by
  obtain h | ⟨r, hf', -, -⟩ := s.keyDown_cases k
  · exact h
  · exact absurd hf' hf

theorem keyDown_of_no_wait {s : State} (hw : s.wait = none) (k : Fin 16) : s.keyDown k = s := by
  obtain h | ⟨r, -, hw', -⟩ := s.keyDown_cases k
  · exact h
  · cases hw.symm.trans hw'

/-- Settles O24: a key-down is ignored, or it is the register write and the end of the wait of `keyDown_of_wait`. -/
theorem keyDownEffect : Obligations.KeyDownEffect := by
  refine fun s k => ⟨fun h => congrArg Host.Outcome.next ?_, fun r hf hw => ⟨s.keyDown k, rfl, ?_⟩⟩
  · obtain hf | hw := h
    · exact keyDown_of_halted hf k
    · exact keyDown_of_no_wait hw k
  · obtain ⟨hkey, hwait, -⟩ := keyDown_resolves hf hw k
    refine ⟨hkey, hwait, fun q hq => ?_, fun a => ?_, ?_⟩ <;> rw [keyDown_of_wait hf hw]
    · exact s.readV_writeV_ne (List.ne_of_not_mem_cons hq) _
    · rfl
    · rfl

/-! ### A Halted and a waiting machine -/

theorem stepCommand_of_halted {s : State} (hf : s.fault ≠ none) : stepCommand s = .next s := by
  simp [stepCommand, State.halted, Option.isSome_iff_ne_none, hf]

theorem batchSteps_of_halted {s : State} (hf : s.fault ≠ none) (n : Nat) : batchSteps n s = .next s := by
  unfold batchSteps
  exact if_pos (Option.isSome_iff_ne_none.mpr hf)

theorem batchSteps_zero (s : State) : batchSteps 0 s = .next s.tick := by
  by_cases hf : s.fault = none
  · simp [batchSteps, State.halted, hf]
  · rw [batchSteps_of_halted hf, s.tick_halted hf]

/-- A batch of one step more is the step and then the batch; a step that leaves a Halted machine is covered, since the
batch then is over (R125, R129). -/
theorem batchSteps_succ {s t : State} (n : Nat) (h : stepCommand s = .next t) : batchSteps (n + 1) s = batchSteps n t := by
  by_cases hf : s.fault = none
  · simp [batchSteps, State.halted, hf, h]
  · cases h.symm.trans (stepCommand_of_halted hf)
    rw [batchSteps_of_halted hf, batchSteps_of_halted hf]

theorem runBatch_pos {n : Nat} (hn : 1 ≤ n) (s : State) : runBatch n s = batchSteps n s := if_neg (by omega)

/-- Settles O18: each command asks first whether the machine is Halted. -/
theorem haltedIsFrozen : Obligations.HaltedIsFrozen := fun s hf =>
  ⟨stepCommand_of_halted hf, congrArg _ (s.tick_halted hf), fun k => congrArg _ (keyDown_of_halted hf k),
    fun n hn => (runBatch_pos hn s).trans (batchSteps_of_halted hf n)⟩

/-- Settles O30, by induction on the steps of the batch, each of which leaves the waiting machine as it is. -/
theorem batchWhileWaiting : Obligations.BatchWhileWaiting := by
  intro s n hn hf hw
  obtain ⟨r, hr⟩ := Option.ne_none_iff_exists'.mp hw
  rw [runBatch_pos hn]
  clear hn
  induction n with
  | zero => exact batchSteps_zero s
  | succ k ih => rw [batchSteps_succ k (stepCommand_of_wait hr), ih]

theorem writeBytes_wait (s : State) (a : Nat) (l : List Byte) : (s.writeBytes a l).wait = s.wait := by
  rw [State.writeBytes_eq]

theorem loadProgram_wait {l : List Byte} {s t : State} (h : loadProgram l s = .next t) : t.wait = s.wait := by
  obtain ⟨-, he⟩ | ⟨-, -, he⟩ | ⟨-, -, -, he⟩ := loadProgram_cases l s <;> cases he.symm.trans h
  · rfl
  · exact writeBytes_wait s programBase l

theorem tick_wait (s : State) : s.tick.wait = s.wait := by
  by_cases hf : s.fault = none
  · rw [s.tick_running hf]
  · rw [s.tick_halted hf]

/-- A command that ends a wait is a key-down to a machine that is not Halted, or a reset. -/
theorem issue_ends_wait {c : Command} {s t : State} {r : Reg} (hw : s.wait = some r) (h : issue c s = .next t)
    (hne : t.wait ≠ some r) : (s.fault = none ∧ ∃ k, c = .keyDown k) ∨ c = .reset := by
  rw [← hw] at hne
  cases c with
  | reset => exact .inr rfl
  | loadProgram bytes => exact absurd (loadProgram_wait h) hne
  | step => cases (stepCommand_of_wait hw).symm.trans h; exact absurd rfl hne
  | tick => cases h; exact absurd (tick_wait s) hne
  | setKeys p => cases h; exact absurd rfl hne
  | keyDown k =>
    cases h
    by_cases hf : s.fault = none
    · exact .inl ⟨hf, k, rfl⟩
    · exact absurd (congrArg State.wait (keyDown_of_halted hf k)) hne

/-- Settles O19: with nothing pending the move is a step, which a waiting machine passes over; else it is a command. -/
theorem waitEndsOnlyByKeyOrReset : Obligations.WaitEndsOnlyByKeyOrReset := by
  intro s t r hw h hne
  cases hp : s.pending with
  | nil =>
    cases (stepCommand_of_wait hw).symm.trans ((step_nil hp).symm.trans h)
    exact absurd hw hne
  | cons c rest =>
    obtain ⟨hf, k, rfl⟩ | rfl := issue_ends_wait (s := { s with pending := rest }) hw ((step_cons hp).symm.trans h) hne
    · exact .inl ⟨hf, k, rest, rfl⟩
    · exact .inr ⟨rest, rfl⟩

/-! ### Reset -/

/-- The font and the zeros above it are what unlisted cells read as (R44, R61, R292). -/
theorem resetByte_font : ∀ a, a < 0x050 → resetByte a = fontByte a := by decide

theorem fontGlyph_above (d : Nat) : fontGlyph (d + 16) = [] := rfl

theorem resetByte_above {a : Nat} (h : 0x050 ≤ a) : resetByte a = 0 := by
  have hdigit : a / 5 = (a / 5 - 16) + 16 := by omega
  rw [resetByte, hdigit, fontGlyph_above]
  rfl

theorem readByte_reset {a : Nat} (h : a < 4096) : State.reset.readByte a = resetByte a := by
  rw [State.readByte, memSize, Nat.mod_eq_of_lt h]
  rfl

theorem coreReset_reset : CoreReset State.reset := by
  refine ⟨fun a ha => ?_, fun a ha hlt => ?_, fun r => ?_, rfl, rfl, rfl, fun k hk => ?_, rfl, rfl, rfl, rfl, rfl, rfl, rfl,
    rfl⟩
  · rw [readByte_reset (by omega), resetByte_font a ha]
  · rw [readByte_reset hlt, resetByte_above ha]
  · exact Vector.getElem_replicate r.isLt
  · exact Vector.getElem_replicate hk

/-- Settles O20: the core's part is `coreReset_reset`, and the environment's fields are those of the model's choice. -/
theorem stateAfterReset : Obligations.StateAfterReset := by
  refine ⟨coreReset_reset, rfl, rfl, fun _ _ => rfl, fun k => ?_, rfl⟩
  unfold keyIsDown
  split
  · next h => exact Vector.getElem_replicate h
  · rfl

/-- Settles O21: the command takes every field of the core from the reset state. -/
theorem resetCommand : Obligations.ResetCommand := fun s => ⟨s.resetCore, rfl, coreReset_reset, rfl, rfl, rfl, rfl⟩

/-! ### The loader -/

/-- Bytes stored at rising addresses leave every cell outside them as it was. -/
theorem readByte_writeBytes_outside {s : State} (hm : Memory.wf s.mem = true) (a k : Nat) (l : List Byte) (hk : k < 4096)
    (hl : a + l.length ≤ 4096) (hout : k < a ∨ a + l.length ≤ k) : (s.writeBytes a l).readByte k = s.readByte k := by
  induction l generalizing s a with
  | nil => rfl
  | cons b rest ih =>
    rw [List.length_cons] at hl hout
    have hne : ¬ k % memSize = a % memSize := by rw [memSize]; omega
    rw [State.writeBytes, ih (s.writeByte_wf a b hm) (a + 1) (by omega) (by omega), State.readByte_writeByte _ _ _ _ hm,
      if_neg hne]

/-- Byte `j` of those stored from address `a` stands at `a + j`. -/
theorem readByte_writeBytes_inside {s : State} (hm : Memory.wf s.mem = true) (a j : Nat) (l : List Byte)
    (hl : a + l.length ≤ 4096) (hj : j < l.length) : (s.writeBytes a l).readByte (a + j) = l[j] := by
  induction l generalizing s a j with
  | nil => exact absurd hj (Nat.not_lt_zero j)
  | cons b rest ih =>
    rw [List.length_cons] at hl hj
    have hm' := s.writeByte_wf a b hm
    cases j with
    | zero =>
      rw [State.writeBytes, readByte_writeBytes_outside hm' _ _ _ (by omega) (by omega) (by omega),
        State.readByte_writeByte _ _ _ _ hm]
      exact if_pos rfl
    | succ j =>
      have hshift : a + (j + 1) = a + 1 + j := by omega
      rw [State.writeBytes, hshift, ih hm' (a + 1) j (by omega) (by omega)]
      rfl

/-- A length of 1 to 3583 bytes is accepted in boot (R296). -/
theorem loadProgram_accepted {s : State} {l : List Byte} (hb : s.loadable = true) (h1 : 1 ≤ l.length)
    (h2 : l.length ≤ 3583) : loadProgram l s = .next { s.writeBytes programBase l with loadable := false } := by
  obtain ⟨hb', -⟩ | ⟨-, hbad, -⟩ | ⟨-, -, -, h⟩ := loadProgram_cases l s
  · cases hb.symm.trans hb'
  · rw [programMax] at hbad; omega
  · exact h

theorem loadProgram_bad_length {s : State} {l : List Byte} (hb : s.loadable = true)
    (hl : l.length = 0 ∨ 3583 < l.length) :
    loadProgram l s = .next { s with fault := some .invalidProgram, loadable := false } := by
  obtain ⟨hb', -⟩ | ⟨-, -, h⟩ | ⟨-, h1, h2, -⟩ := loadProgram_cases l s
  · cases hb.symm.trans hb'
  · exact h
  · rw [programMax] at h2; omega

theorem loadProgram_refused {s : State} (l : List Byte) (hb : s.loadable = false) :
    loadProgram l s = .refused .loadOutsideBoot := by
  simp [loadProgram, hb]

/-- Settles O25: an accepted program is one store of its bytes from 0x200. -/
theorem loadProgramEffect : Obligations.LoadProgramEffect := by
  refine fun s l hm hb => ⟨fun ⟨h1, h2⟩ => ⟨_, loadProgram_accepted hb h1 h2, fun j hj => ?_, fun a ha hout => ?_,
    fun r _ => ?_, ?_⟩, fun hl => loadProgram_bad_length hb hl⟩
  · exact readByte_writeBytes_inside hm 0x200 j l (by omega) hj
  · exact readByte_writeBytes_outside hm 0x200 a l ha (by omega) hout
  · rw [State.writeBytes_eq]; rfl
  · rw [State.writeBytes_eq]

/-- Settles O26: each of the two asks for its refusal first. -/
theorem refusedCommands : Obligations.RefusedCommands := ⟨fun _ l hb => loadProgram_refused l hb, fun _ => rfl⟩

/-- Settles O29: the load is accepted in the reset core, whose memory is the empty list and so canonical. -/
theorem bootSequence : Obligations.BootSequence := by
  intro s l h1 h2
  have hm : Memory.wf s.resetCore.mem = true := rfl
  refine ⟨_, loadProgram_accepted (s := s.resetCore) rfl h1 h2, ?_, ?_, ?_, ?_, ?_, fun r => ?_, fun j hj => ?_,
    fun a ha hout => ?_, fun again => loadProgram_refused again rfl⟩
  iterate 5 rw [State.writeBytes_eq]; rfl
  · rw [State.writeBytes_eq]
    exact Vector.getElem_replicate r.isLt
  · exact readByte_writeBytes_inside hm 0x200 j l (by omega) hj
  · exact readByte_writeBytes_outside hm 0x200 a l ha (by omega) hout

end Sys2Proof.CommandProofs
end

section
/-! Batches and frames (40_cycle_and_dispatch.md): no step sees the pending commands, so the commands of a batch or a frame,
issued one at a time, do what the batch or the frame does. -/

namespace Sys2Proof.BatchProofs

open Sys2Proof Sys2Proof.Machine Sys2Proof.Statements Sys2Proof.WaitProofs Sys2Proof.StepProofs Sys2Proof.CommandProofs

/-- The state with other commands pending. -/
def withPending (p : List Command) (s : State) : State := { s with pending := p }

section
variable (s : State) (p : List Command)

theorem withPending_self (h : s.pending = p) : withPending p s = s := by
  rw [← h]; rfl

/-! ### Operations and instructions do not see the pending commands -/

theorem skipIf_withPending (c : Bool) : (withPending p s).skipIf c = withPending p (s.skipIf c) := by
  cases c <;> rfl

theorem storeRegs_withPending (n : Nat) : (withPending p s).storeRegs n = withPending p (s.storeRegs n) := by
  induction n with
  | zero => rfl
  | succ k ih => simp only [State.storeRegs, ih]; rfl

theorem loadRegs_withPending (n : Nat) : (withPending p s).loadRegs n = withPending p (s.loadRegs n) := by
  induction n with
  | zero => rfl
  | succ k ih => simp only [State.loadRegs, ih]; rfl

theorem drawRows_withPending (vx vy n : Nat) : (withPending p s).drawRows vx vy n = s.drawRows vx vy n := by
  induction n with
  | zero => rfl
  | succ k ih => simp only [State.drawRows, ih]; rfl

end

section
variable {s t : State} (p : List Command)

theorem exec_withPending {i : Instr} (h : exec i s = .next t) : exec i (withPending p s) = .next (withPending p t) := by
  have hsp : (withPending p s).sp = s.sp := rfl
  cases i with
  | ret =>
    obtain ⟨h0, he⟩ | ⟨hp, he⟩ := execRet_cases s <;> cases he.symm.trans h <;>
      obtain ⟨h0', he'⟩ | ⟨hp', he'⟩ := execRet_cases (withPending p s)
    · exact he'
    · omega
    · omega
    · exact he'
  | call nnn =>
    obtain ⟨h0, he⟩ | ⟨hp, he⟩ := execCall_cases nnn s <;> cases he.symm.trans h <;>
      obtain ⟨h0', he'⟩ | ⟨hp', he'⟩ := execCall_cases nnn (withPending p s)
    · exact he'
    · omega
    · omega
    · exact he'
  | seImm x kk | sneImm x kk => cases h; exact congrArg Host.Outcome.next (skipIf_withPending s p _)
  | seReg x y | sneReg x y => cases h; exact congrArg Host.Outcome.next (skipIf_withPending s p _)
  | skp x | sknp x => cases h; exact congrArg Host.Outcome.next (skipIf_withPending s p _)
  | stRegs x => cases h; exact congrArg Host.Outcome.next (storeRegs_withPending s p _)
  | ldRegs x => cases h; exact congrArg Host.Outcome.next (loadRegs_withPending s p _)
  | drw x y n => cases h; simp only [exec, execDrw, drawRows_withPending]; rfl
  | cls | jp _ | ldImm _ _ | addImm _ _ | ldReg _ _ | orReg _ _ | andReg _ _ | xorReg _ _ | addReg _ _ | subReg _ _
  | shr _ _ | subnReg _ _ | shl _ _ | ldI _ | jpV0 _ | rnd _ _ | ldVxDt _ | ldVxK _ | ldDtVx _ | ldStVx _ | addI _
  | ldF _ | ldB _ => cases h; rfl

theorem stepCommand_of_rejected {e : DecodeError} (hf : s.fault = none) (hw : s.wait = none)
    (hd : decodeWord s.fetchWord = .rejected e) : stepCommand s = .next (s.advance.raise .unknownOpcode s.fetchWord) := by
  obtain ⟨hne, -⟩ | ⟨-, hne, -⟩ | ⟨j, -, -, hj, -⟩ | ⟨e, -, -, -, h⟩ := stepCommand_cases s
  · exact absurd hf hne
  · exact absurd hw hne
  · cases hd.symm.trans hj
  · exact h

theorem stepCommand_withPending (h : stepCommand s = .next t) :
    stepCommand (withPending p s) = .next (withPending p t) := by
  obtain ⟨hf, he⟩ | ⟨hf, hw, he⟩ | ⟨i, hf, hw, hd, he⟩ | ⟨e, hf, hw, hd, he⟩ := stepCommand_cases s
  · cases he.symm.trans h
    exact stepCommand_of_halted (s := withPending p s) hf
  · cases he.symm.trans h
    obtain ⟨r, hr⟩ := Option.ne_none_iff_exists'.mp hw
    exact stepCommand_of_wait (s := withPending p s) hr
  · have hexec : stepCommand (withPending p s) = exec i (withPending p s.advance) :=
      stepCommand_of_fetched (s := withPending p s) hf hw hd
    rw [hexec]
    exact exec_withPending p (he.symm.trans h)
  · cases he.symm.trans h
    exact stepCommand_of_rejected (s := withPending p s) hf hw hd

theorem tick_withPending (s : State) : (withPending p s).tick = withPending p s.tick := by
  by_cases hf : s.fault = none
  · rw [s.tick_running hf]
    exact State.tick_running (withPending p s) hf
  · rw [s.tick_halted hf]
    exact State.tick_halted (withPending p s) hf

theorem keyEvent_withPending (s : State) (e : KeyEvent) : (withPending p s).keyEvent e = withPending p (s.keyEvent e) := by
  cases e with
  | inr pressed => rfl
  | inl k =>
    show (withPending p s).keyDown k = withPending p (s.keyDown k)
    by_cases hf : s.fault = none
    · cases hw : s.wait with
      | none => rw [keyDown_of_no_wait hw, keyDown_of_no_wait (s := withPending p s) hw]
      | some r => rw [keyDown_of_wait hf hw, keyDown_of_wait (s := withPending p s) hf hw]; rfl
    · rw [keyDown_of_halted hf, keyDown_of_halted (s := withPending p s) hf]

theorem tick_pending (s : State) : s.tick.pending = s.pending := by
  by_cases hf : s.fault = none
  · rw [s.tick_running hf]
  · rw [s.tick_halted hf]

theorem keyEvent_pending (s : State) (e : KeyEvent) : (s.keyEvent e).pending = s.pending := by
  cases e with
  | inr pressed => rfl
  | inl k =>
    show (s.keyDown k).pending = s.pending
    obtain h | ⟨r, -, -, h⟩ := s.keyDown_cases k <;> rw [h]
    rfl

end

/-! ### Runs of pending commands -/

/-- A run that begins with a move to `t` goes on from `t` (R8). -/
theorem run_succ {s t : State} (k : Nat) (h : step s = .next t) :
    Host.Core.run Sys2Proof.core (k + 1) s = Host.Core.run Sys2Proof.core k t := by
  have hcore : Sys2Proof.core.step s = .next t := h
  simp only [Host.Core.run, hcore]

/-- The oldest pending command is the next move. -/
theorem step_withPending_cons (c : Command) (rest : List Command) (s : State) :
    step (withPending (c :: rest) s) = issue c (withPending rest s) :=
  step_cons (s := withPending (c :: rest) s) rfl

/-- The commands of a batch, issued one at a time, do what the batch does (R125, R127, R129). -/
theorem run_batchCommands (n : Nat) {s : State} (hp : s.pending = []) :
    Host.Core.run Sys2Proof.core (n + 1) (withPending (batchCommands n) s) = batchSteps n s := by
  induction n generalizing s with
  | zero =>
    have htick : (withPending [] s).tick = s.tick := by
      rw [tick_withPending, withPending_self _ _ ((tick_pending s).trans hp)]
    have hmove : step (withPending (batchCommands 0) s) = .next s.tick :=
      (step_withPending_cons .tick [] s).trans (congrArg Host.Outcome.next htick)
    rw [run_succ 0 hmove, batchSteps_zero]
    rfl
  | succ k ih =>
    obtain ⟨t, ht, htp⟩ := stepCommand_next s
    have hmove : step (withPending (batchCommands (k + 1)) s) = .next (withPending (batchCommands k) t) :=
      (step_withPending_cons .step _ s).trans (stepCommand_withPending (batchCommands k) ht)
    rw [run_succ (k + 1) hmove, batchSteps_succ k ht, ih (htp.trans hp)]

/-- Settles O27: the batch is at least one step, so it is `batchSteps`. -/
theorem batchIsStepsThenTick : Obligations.BatchIsStepsThenTick := fun s n hn hp =>
  (run_batchCommands n hp).trans (runBatch_pos hn s).symm

/-- The commands of a frame, issued one at a time, are its key events and then its batch (R126, R268). -/
theorem run_frameCommands (events : List KeyEvent) {n : Nat} (hn : 1 ≤ n) {s : State} (hp : s.pending = []) :
    Host.Core.run Sys2Proof.core (events.length + (n + 1)) (withPending (frameCommands events n) s) =
      runFrame events n s := by
  induction events generalizing s with
  | nil =>
    rw [List.length_nil, Nat.zero_add]
    exact batchIsStepsThenTick s n hn hp
  | cons e rest ih =>
    have hmove : step (withPending (frameCommands (e :: rest) n) s) =
        .next (withPending (frameCommands rest n) (s.keyEvent e)) := by
      rw [← keyEvent_withPending]
      cases e with
      | inl k => exact step_withPending_cons (.keyDown k) _ s
      | inr pressed => exact step_withPending_cons (.setKeys pressed) _ s
    have hlen : (e :: rest).length + (n + 1) = rest.length + (n + 1) + 1 := by rw [List.length_cons]; omega
    rw [hlen, run_succ _ hmove, ih ((keyEvent_pending s e).trans hp)]
    rfl

/-- Settles O28, by induction on the key events, none of which sees the pending commands. -/
theorem frameIsItsCommands : Obligations.FrameIsItsCommands := fun _ events _ hn hp => run_frameCommands events hn hp

end Sys2Proof.BatchProofs
end

section
/-! Flow and skips (41_flow.md, 42_skip.md, 47_keyboard_and_wait.md): call, return and the jump with offset, and the six
conditional skips. -/

namespace Sys2Proof.CallAndSkipProofs

open Sys2Proof Sys2Proof.Machine Sys2Proof.Statements Sys2Proof.EncodingProofs Sys2Proof.FlowProofs Sys2Proof.StepProofs

/-! ### Words as numbers -/

/-- The number of an instruction's word decodes to it (R93, R96). -/
theorem wordOf_of_toNat {i : Instr} {w : Nat} (hwf : WellFormed i) (h : (encode i).toNat = w) : WordOf w i := by
  rw [WordOf, ← h, BitVec.ofNat_toNat, BitVec.setWidth_eq]
  exact decodeOfEncode i hwf

section
variable (x y : Reg) (kk : Byte)

theorem wordOf_seImm : WordOf (0x3000 + x.val * 256 + kk.toNat) (.seImm x kk) :=
  wordOf_of_toNat rfl (encodeRegByte_toNat 0x3#4 x kk)

theorem wordOf_sneImm : WordOf (0x4000 + x.val * 256 + kk.toNat) (.sneImm x kk) :=
  wordOf_of_toNat rfl (encodeRegByte_toNat 0x4#4 x kk)

theorem wordOf_seReg : WordOf (0x5000 + x.val * 256 + y.val * 16) (.seReg x y) :=
  wordOf_of_toNat rfl (encodeRegReg_toNat 0x5#4 x y 0x0#4)

theorem wordOf_sneReg : WordOf (0x9000 + x.val * 256 + y.val * 16) (.sneReg x y) :=
  wordOf_of_toNat rfl (encodeRegReg_toNat 0x9#4 x y 0x0#4)

theorem wordOf_skp : WordOf (0xE09E + x.val * 256) (.skp x) :=
  wordOf_of_toNat rfl ((encodeRegByte_toNat 0xE#4 x 0x9E#8).trans (Nat.add_right_comm _ _ _))

theorem wordOf_sknp : WordOf (0xE0A1 + x.val * 256) (.sknp x) :=
  wordOf_of_toNat rfl ((encodeRegByte_toNat 0xE#4 x 0xA1#8).trans (Nat.add_right_comm _ _ _))

end

/-- The word of a call as a number; it is what a call on a full stack records. -/
theorem encode_call {nnn : Word} (h : nnn.toNat < 4096) : encode (.call nnn) = BitVec.ofNat 16 (0x2000 + nnn.toNat) :=
  (ofNat_eq_encodeAddr 0x2#4 h).symm

theorem wordOf_call {nnn : Word} (h : nnn.toNat < 4096) : WordOf (0x2000 + nnn.toNat) (.call nnn) := by
  rw [WordOf, ← encode_call h]
  exact decodeOfEncode _ ((addressOk_iff nnn).mpr h)

theorem wordOf_jpV0 {nnn : Word} (h : nnn.toNat < 4096) : WordOf (0xB000 + nnn.toNat) (.jpV0 nnn) := by
  have hw : BitVec.ofNat 16 (0xB000 + nnn.toNat) = encode (.jpV0 nnn) := ofNat_eq_encodeAddr 0xB#4 h
  rw [WordOf, hw]
  exact decodeOfEncode _ ((addressOk_iff nnn).mpr h)

/-! ### Call, return, jump with offset -/

/-- A call with room on the stack. -/
theorem execCall_of_room {s : State} (nnn : Word) (h : s.sp.val < 16) : exec (.call nnn) s =
    .next (State.setPc { s with stack := s.stack.set s.sp.val s.pc h, sp := ⟨s.sp.val + 1, by omega⟩ } nnn.toNat) := by
  obtain ⟨hfull, -⟩ | ⟨_, he⟩ := execCall_cases nnn s
  · omega
  · exact he

theorem execCall_of_full {s : State} (nnn : Word) (h : s.sp.val = 16) :
    exec (.call nnn) s = .next (s.raise .stackOverflow (encode (.call nnn))) := by
  obtain ⟨-, he⟩ | ⟨hroom, -⟩ := execCall_cases nnn s
  · exact he
  · omega

theorem execRet_of_entry {s : State} (h : 0 < s.sp.val) : exec .ret s =
    .next (State.setPc { s with sp := ⟨s.sp.val - 1, by omega⟩ } (s.stack[s.sp.val - 1]'(by omega)).toNat) := by
  obtain ⟨hempty, -⟩ | ⟨_, he⟩ := execRet_cases s
  · omega
  · exact he

theorem execRet_of_empty {s : State} (h : s.sp.val = 0) :
    exec .ret s = .next (s.raise .stackUnderflow (encode .ret)) := by
  obtain ⟨-, he⟩ | ⟨hentry, -⟩ := execRet_cases s
  · exact he
  · omega

/-- Settles O32: the two cases of `execCall_cases`; the word recorded is the encoding of the call. -/
theorem call : Obligations.Call := by
  refine fun s nnn hn => ⟨wordOf_call hn, fun h => ⟨_, execCall_of_room nnn h, addressWord_of_lt hn, rfl,
    Vector.getElem_set_self h, fun k hk hne => Vector.getElem_set_ne h hk (Ne.symm hne), fun _ _ => rfl, fun _ => rfl, rfl⟩,
    fun h => ⟨_, execCall_of_full nnn h, ?_⟩⟩
  rw [← encode_call hn]
  exact errorTaken_raise s _ _

/-- Settles O33: the two cases of `execRet_cases`. -/
theorem ret : Obligations.Return :=
  ⟨wordOf_of_toNat rfl rfl, fun s =>
    ⟨fun h => ⟨_, execRet_of_entry h, addressWord_toNat _, rfl, fun _ _ => rfl, fun _ => rfl, rfl⟩,
      fun h => ⟨_, execRet_of_empty h, errorTaken_raise s _ _⟩⟩⟩

/-- Settles O34: the meaning is one write of the pc, which reduces the sum. -/
theorem jumpOffset : Obligations.JumpOffset := fun s _ h =>
  ⟨wordOf_jpV0 h, _, rfl, addressWord_toNat _, pcFrame_setPc s _⟩

/-- Settles O35: the return finds the entry the call pushed, which is below 4096 and so kept as it is. -/
theorem callThenReturn : Obligations.CallThenReturn := by
  intro s nnn hsp hpc
  have htop : (s.stack.set s.sp.val s.pc hsp)[s.sp.val + 1 - 1]'(by omega) = s.pc := Vector.getElem_set_self hsp
  have hback : addressWord ((s.stack.set s.sp.val s.pc hsp)[s.sp.val + 1 - 1]'(by omega)).toNat = s.pc := by
    rw [htop, addressWord_of_lt hpc]
  exact ⟨_, _, execCall_of_room nnn hsp, execRet_of_entry (Nat.succ_pos _), hback, rfl,
    congrArg (fun pc => { s with stack := s.stack.set s.sp.val s.pc hsp, pc := pc }) hback⟩

/-! ### Skips -/

/-- A skip on a condition moves the pc 2 further where it holds, and changes nothing else (R150). -/
theorem skipIf_result (s : State) {c : Bool} {p : Prop} [Decidable p] (h : c = true ↔ p) :
    (s.skipIf c).pc.toNat = (if p then (s.pc.toNat + 2) % 4096 else s.pc.toNat) ∧ PcFrame s (s.skipIf c) := by
  obtain ⟨hc, hs⟩ | ⟨hc, hs⟩ := s.skipIf_cases c <;> rw [hs]
  · rw [if_pos (h.mp hc)]
    exact ⟨addressWord_toNat _, pcFrame_setPc s _⟩
  · rw [if_neg fun hp => by rw [h.mpr hp] at hc; cases hc]
    exact ⟨rfl, fun _ _ => rfl, fun _ => rfl, rfl⟩

/-- Settles O36: each meaning is a skip on the comparison of the statement. -/
theorem skipOnImmediate : Obligations.SkipOnImmediate := fun s x kk =>
  ⟨wordOf_seImm x kk, wordOf_sneImm x kk, ⟨_, rfl, skipIf_result s beq_iff_eq⟩, ⟨_, rfl, skipIf_result s bne_iff_ne⟩⟩

/-- Settles O37: each meaning is a skip on the comparison of the two registers. -/
theorem skipOnRegisters : Obligations.SkipOnRegisters := fun s x y =>
  ⟨wordOf_seReg x y, wordOf_sneReg x y, ⟨_, rfl, skipIf_result s beq_iff_eq⟩, ⟨_, rfl, skipIf_result s bne_iff_ne⟩⟩

/-- Settles O38: the model's reading of a key is the statement's. -/
theorem skipOnKey : Obligations.SkipOnKey := fun s x =>
  ⟨wordOf_skp x, wordOf_sknp x, ⟨_, rfl, skipIf_result s Iff.rfl⟩, ⟨_, rfl, skipIf_result s (Bool.not_eq_true' _).to_iff⟩⟩

end Sys2Proof.CallAndSkipProofs
end

section
/-! ALU with a flag (44_alu.md): the shared meaning of `8xy4` to `8xy7` and `8xyE`, the five instructions, and their forms
with VF as an operand (R182). -/

namespace Sys2Proof.AluFlagProofs

open Sys2Proof Sys2Proof.Machine Sys2Proof.Statements Sys2Proof.AluProofs Sys2Proof.FrameProofs

/-! ### The words, by their selectors in family 8 (R170) -/

theorem wordOf_addReg (x y : Reg) : WordOf (0x8004 + x.val * 256 + y.val * 16) (.addReg x y) :=
  wordOf_family8 (n := 0x4#4) (by simp [decodeFamily8])

theorem wordOf_subReg (x y : Reg) : WordOf (0x8005 + x.val * 256 + y.val * 16) (.subReg x y) :=
  wordOf_family8 (n := 0x5#4) (by simp [decodeFamily8])

theorem wordOf_shr (x y : Reg) : WordOf (0x8006 + x.val * 256 + y.val * 16) (.shr x y) :=
  wordOf_family8 (n := 0x6#4) (by simp [decodeFamily8])

theorem wordOf_subnReg (x y : Reg) : WordOf (0x8007 + x.val * 256 + y.val * 16) (.subnReg x y) :=
  wordOf_family8 (n := 0x7#4) (by simp [decodeFamily8])

theorem wordOf_shl (x y : Reg) : WordOf (0x800E + x.val * 256 + y.val * 16) (.shl x y) :=
  wordOf_family8 (n := 0xE#4) (by simp [decodeFamily8])

/-- The two register writes of R171, with the flag and the function of a statement for those of the model. -/
theorem aluFlag_result (s : State) (x y : Reg) {flag f f' : Byte → Byte → Byte} {c : Byte}
    (hflag : flag (s.readV x) (s.readV y) = c) (hf : ∀ a b, f a b = f' a b) :
    FlagThenResult x y c f' s (s.aluFlag x y flag f) := by
  have hnow (r : Reg) : (s.writeV vf c).readV r = if r = 15 then c else s.readV r := s.readV_writeV vf r c
  have heq : s.aluFlag x y flag f =
      (s.writeV vf c).writeV x (f' (if x = 15 then c else s.readV x) (if y = 15 then c else s.readV y)) := by
    simp only [State.aluFlag_eq, hflag, hnow, hf]
  refine ⟨?_, fun hx => ?_, fun r hr => readV_aluFlag_ne s y flag f hr, fun _ => rfl, rfl⟩
  · rw [heq, State.readV_writeV_self]
  · rw [heq, State.readV_writeV_ne _ (Ne.symm hx), State.readV_writeV_self]

/-! ### The flags and the results as numbers -/

theorem flagByte_decide (p : Prop) [Decidable p] : flagByte (decide p) = if p then 1 else 0 := by
  simp only [flagByte, decide_eq_true_eq]

theorem add_eq_ofNat (a b : Byte) : a + b = BitVec.ofNat 8 ((a.toNat + b.toNat) % 256) := by
  apply BitVec.eq_of_toNat_eq
  simp [BitVec.toNat_add]

theorem sub_eq_ofInt (a b : Byte) : a - b = BitVec.ofInt 8 (((a.toNat : Int) - b.toNat) % 256) := by
  apply BitVec.eq_of_toNat_eq
  rw [BitVec.toNat_sub, BitVec.toNat_ofInt]
  omega

theorem shrFlag_eq (a b : Byte) : shrFlag a b = BitVec.ofNat 8 (a.toNat % 2) := by
  apply BitVec.eq_of_toNat_eq
  have h1 : (0x01 : Byte).toNat = 2 ^ 1 - 1 := rfl
  rw [shrFlag, BitVec.toNat_and, BitVec.toNat_ofNat, h1, Nat.and_two_pow_sub_one_eq_mod]
  omega

theorem shiftRight_eq (a : Byte) : a >>> 1 = BitVec.ofNat 8 (a.toNat / 2) := by
  apply BitVec.eq_of_toNat_eq
  rw [BitVec.toNat_ushiftRight, Nat.shiftRight_eq_div_pow, BitVec.toNat_ofNat]
  omega

theorem shlFlag_eq (a b : Byte) : shlFlag a b = if 128 ≤ a.toNat then 0x80 else 0x00 := by
  have hbit : (0x80 : Byte) = BitVec.twoPow 8 7 := rfl
  have hmsb : a.getLsbD 7 = decide (128 ≤ a.toNat) := BitVec.msb_eq_decide a
  rw [shlFlag, hbit, BitVec.and_twoPow, hmsb]
  simp only [decide_eq_true_eq]
  rfl

theorem shiftLeft_eq (a : Byte) : a <<< 1 = BitVec.ofNat 8 (a.toNat * 2 % 256) := by
  apply BitVec.eq_of_toNat_eq
  rw [BitVec.toNat_shiftLeft, Nat.shiftLeft_eq, BitVec.toNat_ofNat]
  omega

/-- Settles O42: the meaning is the two register writes with the carry and the sum of two bytes. -/
theorem addSetsCarry : Obligations.AddSetsCarry := fun s x y =>
  ⟨wordOf_addReg x y, _, rfl, aluFlag_result s x y (flagByte_decide _) add_eq_ofNat⟩

/-- Settles O43: the two register writes with the strict comparison and the difference of two bytes. -/
theorem subSetsGreater : Obligations.SubSetsGreater := fun s x y =>
  ⟨wordOf_subReg x y, _, rfl, aluFlag_result s x y (flagByte_decide _) sub_eq_ofInt⟩

/-- Settles O44: as O43 with the operands of comparison and difference exchanged. -/
theorem subnSetsGreater : Obligations.SubnSetsGreater := fun s x y =>
  ⟨wordOf_subnReg x y, _, rfl, aluFlag_result s x y (flagByte_decide _) fun a b => sub_eq_ofInt b a⟩

/-- Settles O45: the two register writes with bit 0 and the half of Vx, neither of which reads Vy. -/
theorem shiftRight : Obligations.ShiftRight := fun s x y =>
  ⟨wordOf_shr x y, _, rfl, aluFlag_result s x y (shrFlag_eq _ _) fun a _ => shiftRight_eq a⟩

/-- Settles O46: the two register writes with bit 7 in its place and the double of Vx, neither of which reads Vy. -/
theorem shiftLeft : Obligations.ShiftLeft := fun s x y =>
  ⟨wordOf_shl x y, _, rfl, aluFlag_result s x y (shlFlag_eq _ _) fun a _ => shiftLeft_eq a⟩

/-! ### VF as an operand -/

section
variable {s t : State} {r : Reg} {c : Byte} {f : Byte → Byte → Byte}

theorem readV_vf_of_x (hr : r ≠ 15) (h : FlagThenResult 15 r c f s t) : t.readV 15 = f c (s.readV r) := by
  obtain ⟨hres, -⟩ := h
  simpa only [if_true, if_neg hr] using hres

theorem readV_of_y (hr : r ≠ 15) (h : FlagThenResult r 15 c f s t) :
    t.readV 15 = c ∧ t.readV r = f (s.readV r) c := by
  obtain ⟨hres, hflag, -⟩ := h
  exact ⟨hflag hr, by simpa only [if_true, if_neg hr] using hres⟩

theorem readV_vf_of_both (h : FlagThenResult 15 15 c f s t) : t.readV 15 = f c c := by
  obtain ⟨hres, -⟩ := h
  simpa only [if_true] using hres

end

theorem toNat_flag (p : Prop) [Decidable p] : (if p then 1 else 0 : Byte).toNat = if p then 1 else 0 := by
  split <;> rfl

theorem toNat_ofNat_mod (n : Nat) : (BitVec.ofNat 8 (n % 256)).toNat = n % 256 := by
  rw [BitVec.toNat_ofNat]
  omega

theorem toNat_ofInt_sub (a b : Byte) :
    (BitVec.ofInt 8 (((a.toNat : Int) - b.toNat) % 256)).toNat = (a.toNat + 256 - b.toNat) % 256 := by
  rw [← sub_eq_ofInt, BitVec.toNat_sub]
  omega

/-- Settles O47: the three columns of the table are the three lemmas above on each instruction's statement. -/
theorem flagRegisterAsOperand : Obligations.FlagRegisterAsOperand := by
  intro s r hr f a bit vfAfter bothAfter
  refine ⟨?_, ?_, ?_, ?_, ?_, ?_, ?_, ?_, ?_, ?_, ?_, ?_, ?_, ?_, ?_⟩
  · obtain ⟨-, t, ht, h⟩ := addSetsCarry s 15 r
    exact ⟨t, ht, by rw [readV_vf_of_x hr h, toNat_ofNat_mod, toNat_flag]⟩
  · obtain ⟨-, t, ht, h⟩ := addSetsCarry s r 15
    obtain ⟨hf, hv⟩ := readV_of_y hr h
    exact ⟨t, ht, by rw [hf, toNat_flag], by rw [hv, toNat_ofNat_mod, toNat_flag]⟩
  · obtain ⟨-, t, ht, h⟩ := addSetsCarry s 15 15
    refine ⟨t, ht, ?_⟩
    rw [readV_vf_of_both h, toNat_ofNat_mod, toNat_flag, ← Nat.two_mul, ← Nat.two_mul]
    exact Nat.mod_eq_of_lt (by split <;> omega)
  · obtain ⟨-, t, ht, h⟩ := subSetsGreater s 15 r
    exact ⟨t, ht, by rw [readV_vf_of_x hr h, toNat_ofInt_sub, toNat_flag]⟩
  · obtain ⟨-, t, ht, h⟩ := subSetsGreater s r 15
    obtain ⟨hf, hv⟩ := readV_of_y hr h
    exact ⟨t, ht, by rw [hf, toNat_flag], by rw [hv, toNat_ofInt_sub, toNat_flag]⟩
  · obtain ⟨-, t, ht, h⟩ := subSetsGreater s 15 15
    exact ⟨t, ht, by rw [readV_vf_of_both h, toNat_ofInt_sub]; omega⟩
  · obtain ⟨-, t, ht, h⟩ := shiftRight s 15 r
    exact ⟨t, ht, by rw [readV_vf_of_x hr h, BitVec.toNat_ofNat, BitVec.toNat_ofNat]; omega⟩
  · obtain ⟨-, t, ht, h⟩ := shiftRight s r 15
    obtain ⟨hf, hv⟩ := readV_of_y hr h
    exact ⟨t, ht, by rw [hf, BitVec.toNat_ofNat]; omega, by rw [hv, BitVec.toNat_ofNat]; omega⟩
  · obtain ⟨-, t, ht, h⟩ := shiftRight s 15 15
    exact ⟨t, ht, by rw [readV_vf_of_both h, BitVec.toNat_ofNat, BitVec.toNat_ofNat]; omega⟩
  · obtain ⟨-, t, ht, h⟩ := subnSetsGreater s 15 r
    exact ⟨t, ht, by rw [readV_vf_of_x hr h, toNat_ofInt_sub, toNat_flag]⟩
  · obtain ⟨-, t, ht, h⟩ := subnSetsGreater s r 15
    obtain ⟨hf, hv⟩ := readV_of_y hr h
    exact ⟨t, ht, by rw [hf, toNat_flag], by rw [hv, toNat_ofInt_sub, toNat_flag]⟩
  · obtain ⟨-, t, ht, h⟩ := subnSetsGreater s 15 15
    exact ⟨t, ht, by rw [readV_vf_of_both h, toNat_ofInt_sub]; omega⟩
  · obtain ⟨-, t, ht, h⟩ := shiftLeft s 15 r
    exact ⟨t, ht, by rw [readV_vf_of_x hr h]; split <;> rfl⟩
  · obtain ⟨-, t, ht, h⟩ := shiftLeft s r 15
    obtain ⟨hf, hv⟩ := readV_of_y hr h
    exact ⟨t, ht, by rw [hf]; split <;> rfl, by rw [hv, toNat_ofNat_mod, Nat.mul_comm]⟩
  · obtain ⟨-, t, ht, h⟩ := shiftLeft s 15 15
    exact ⟨t, ht, by rw [readV_vf_of_both h]; split <;> rfl⟩

end Sys2Proof.AluFlagProofs
end

section
/-! Index register and memory (45_index_and_memory.md): `Fx1E` and `Fx29`, the decimal digits, and the transfers of V0 to
Vx to and from memory. -/

namespace Sys2Proof.TransferProofs

open Sys2Proof Sys2Proof.Machine Sys2Proof.Statements Sys2Proof.WaitProofs Sys2Proof.IndexProofs Sys2Proof.FrameProofs
  Sys2Proof.StepProofs

/-! ### The words, by their low bytes in family F (R123) -/

theorem wordOf_addI (x : Reg) : WordOf (0xF01E + x.val * 256) (.addI x) :=
  wordOf_familyF (kk := 0x1E#8) (by simp [decodeFamilyF])

theorem wordOf_ldF (x : Reg) : WordOf (0xF029 + x.val * 256) (.ldF x) :=
  wordOf_familyF (kk := 0x29#8) (by simp [decodeFamilyF])

theorem wordOf_ldB (x : Reg) : WordOf (0xF033 + x.val * 256) (.ldB x) :=
  wordOf_familyF (kk := 0x33#8) (by simp [decodeFamilyF])

theorem wordOf_stRegs (x : Reg) : WordOf (0xF055 + x.val * 256) (.stRegs x) :=
  wordOf_familyF (kk := 0x55#8) (by simp [decodeFamilyF])

theorem wordOf_ldRegs (x : Reg) : WordOf (0xF065 + x.val * 256) (.ldRegs x) :=
  wordOf_familyF (kk := 0x65#8) (by simp [decodeFamilyF])

/-- Settles O49: each meaning is one write of I; five times a byte is below 4096 and so kept as it is. -/
theorem addIndexAndGlyphAddress : Obligations.AddIndexAndGlyphAddress := by
  intro s x
  have hglyph : (s.setI ((s.readV x).toNat * 5)).i.toNat = (s.readV x).toNat * 5 := by
    rw [State.setI_i, addressWord_toNat, memSize]
    omega
  exact ⟨⟨wordOf_addI x, _, rfl, addressWord_toNat _, indexFrame_setI s _⟩,
    ⟨wordOf_ldF x, _, rfl, hglyph, indexFrame_setI s _⟩⟩

/-! ### Effective addresses (R196) -/

section
variable (s : State)

/-- An effective address is reduced, so an access does not reduce it further. -/
theorem ea_mod (k : Nat) : s.ea k % memSize = s.ea k := Nat.mod_mod _ _

/-- An access at an effective address is one at the unreduced sum. -/
theorem readByte_ea (t : State) (k : Nat) : t.readByte (s.ea k) = t.readByte (s.i.toNat + k) := by
  rw [State.readByte, ea_mod]
  rfl

/-- Offsets below 4096 name different cells. -/
theorem ea_ne {j k : Nat} (hj : j < 4096) (hk : k < 4096) (h : j ≠ k) : s.ea j ≠ s.ea k := by
  simp only [State.ea, memSize]
  omega

@[simp] theorem ea_storeRegs (n k : Nat) : (s.storeRegs n).ea k = s.ea k := by
  rw [State.storeRegs_eq]
  rfl

/-! ### One store and the stores of `Fx55` -/

variable {s}

theorem readByte_storeAt (hm : Memory.wf s.mem = true) (j a : Nat) (b : Byte) :
    (s.storeAt j b).readByte a = if a % memSize = s.ea j then b else s.readByte a := by
  rw [State.storeAt, State.readByte_writeByte _ _ _ _ hm, ea_mod]

theorem readByte_storeAt_self (hm : Memory.wf s.mem = true) (j : Nat) (b : Byte) :
    (s.storeAt j b).readByte (s.ea j) = b := by
  rw [readByte_storeAt hm, ea_mod, if_pos rfl]

theorem readByte_storeAt_ne (hm : Memory.wf s.mem = true) {j a : Nat} (b : Byte) (h : a % memSize ≠ s.ea j) :
    (s.storeAt j b).readByte a = s.readByte a := by
  rw [readByte_storeAt hm, if_neg h]

theorem storeAt_wf (hm : Memory.wf s.mem = true) (j : Nat) (b : Byte) : Memory.wf (s.storeAt j b).mem = true :=
  s.writeByte_wf _ b hm

/-- The first `n` stores put Vk in cell I + k. -/
theorem readByte_storeRegs_inside (hm : Memory.wf s.mem = true) {n k : Nat} (hn : n ≤ 16) (hk : k < n) :
    (s.storeRegs n).readByte (s.ea k) = s.readV (regAt k) := by
  induction n with
  | zero => exact absurd hk (Nat.not_lt_zero k)
  | succ m ih =>
    have hm' := s.storeRegs_wf m hm
    rw [State.storeRegs, readByte_storeAt hm', ea_mod, ea_storeRegs]
    by_cases hkm : k = m
    · rw [hkm, if_pos rfl]
    · rw [if_neg (ea_ne s (by omega) (by omega) hkm), ih (by omega) (by omega)]

/-- They leave every other cell as it was. -/
theorem readByte_storeRegs_outside (hm : Memory.wf s.mem = true) {n a : Nat} (h : ∀ k, k < n → a % memSize ≠ s.ea k) :
    (s.storeRegs n).readByte a = s.readByte a := by
  induction n with
  | zero => rfl
  | succ m ih =>
    have hne : a % memSize ≠ (s.storeRegs m).ea m := by
      rw [ea_storeRegs]
      exact h m (Nat.lt_succ_self m)
    rw [State.storeRegs, readByte_storeAt_ne (s.storeRegs_wf m hm) _ hne, ih fun k hk => h k (Nat.lt_succ_of_lt hk)]

end

theorem regAt_val (r : Reg) : regAt r.val = r := Fin.ext (Nat.mod_eq_of_lt r.isLt)

/-- Settles O51: `Fx55` is the first x + 1 stores. -/
theorem storeRegisters : Obligations.StoreRegisters := by
  refine fun s x hm => ⟨wordOf_stRegs x, _, rfl, fun r hr => ?_, fun r _ => readV_storeRegs s _ r, fun a ha => ?_,
    State.storeRegs_eq s _⟩
  · have hlt : r.val < x.val + 1 := Nat.lt_succ_iff.mpr hr
    rw [readByte_storeRegs_inside hm x.isLt hlt, regAt_val]
  · exact readByte_storeRegs_outside hm fun k hk he => ha (List.mem_map.mpr ⟨k, List.mem_range.mpr hk, he.symm⟩)

/-- Settles O52: `Fx65` is the first x + 1 loads. -/
theorem loadRegisters : Obligations.LoadRegisters := by
  refine fun s x => ⟨wordOf_ldRegs x, _, rfl, fun r hr => ?_, fun r hr => ?_, fun a => ?_, State.loadRegs_eq s _⟩
  · rw [State.readV_loadRegs s _ x.isLt, if_pos (Nat.lt_succ_iff.mpr hr), readByte_ea]
  · rw [State.readV_loadRegs s _ x.isLt, if_neg fun hlt => hr (mem_upTo.mpr (Nat.lt_succ_iff.mp hlt))]
  · rw [State.loadRegs_eq]
    rfl

/-- Settles O53: the fetch at I reads the first two cells stored. -/
theorem storedWordIsFetched : Obligations.StoredWordIsFetched := by
  intro s x hm _ hx
  have hread (k : Nat) (hk : k < x.val + 1) :
      (s.storeRegs (x.val + 1)).readByte (s.i.toNat + k) = s.readV (regAt k) := by
    rw [← readByte_ea, readByte_storeRegs_inside hm x.isLt hk]
  refine ⟨_, rfl, (wordOfBytes_toNat _ _).trans ?_⟩
  show ((s.storeRegs (x.val + 1)).readByte (s.i.toNat + 0)).toNat * 256 +
    ((s.storeRegs (x.val + 1)).readByte (s.i.toNat + 1)).toNat = _
  rw [hread 0 (by omega), hread 1 (by omega)]
  rfl

/-! ### The decimal digits of `Fx33` -/

theorem bcdHundreds_toNat (b : Byte) : (bcdHundreds b).toNat = b.toNat / 100 := by
  rw [bcdHundreds, BitVec.toNat_ofNat]
  omega

theorem bcdTens_toNat (b : Byte) : (bcdTens b).toNat = b.toNat / 10 % 10 := by
  rw [bcdTens, BitVec.toNat_ofNat]
  omega

theorem bcdOnes_toNat (b : Byte) : (bcdOnes b).toNat = b.toNat % 10 := by
  rw [bcdOnes, BitVec.toNat_ofNat]
  omega

/-- Settles O50: three stores to three different cells. -/
theorem storeDecimalDigits : Obligations.StoreDecimalDigits := by
  intro s x hm
  have hm1 := storeAt_wf hm 0 (bcdHundreds (s.readV x))
  have hm2 := storeAt_wf hm1 1 (bcdTens (s.readV x))
  have hne (j k : Nat) (hj : j < 4096) (hk : k < 4096) (h : j ≠ k) : s.ea j % memSize ≠ s.ea k := by
    rw [ea_mod]
    exact ea_ne s hj hk h
  refine ⟨wordOf_ldB x, _, rfl, ?_, ?_, ?_, fun _ _ => rfl, fun a ha => ?_, rfl⟩
  · rw [readByte_storeAt_ne hm2 _ (hne 0 2 (by decide) (by decide) (by decide)),
      readByte_storeAt_ne hm1 _ (hne 0 1 (by decide) (by decide) (by decide)), readByte_storeAt_self hm, bcdHundreds_toNat]
  · rw [readByte_storeAt_ne hm2 _ (hne 1 2 (by decide) (by decide) (by decide))]
    exact (congrArg BitVec.toNat (readByte_storeAt_self hm1 1 _)).trans (bcdTens_toNat _)
  · exact (congrArg BitVec.toNat (readByte_storeAt_self hm2 2 _)).trans (bcdOnes_toNat _)
  · simp only [List.mem_cons, List.not_mem_nil, or_false, not_or] at ha
    obtain ⟨h0, h1, h2⟩ := ha
    rw [readByte_storeAt_ne hm2 _ h2, readByte_storeAt_ne hm1 _ h1, readByte_storeAt_ne hm _ h0]

end Sys2Proof.TransferProofs
end

section
/-! Timers and random (48_timers_and_random.md): the three timer transfers and the random byte. -/

namespace Sys2Proof.TimerProofs

open Sys2Proof Sys2Proof.Machine Sys2Proof.Statements Sys2Proof.ImmediateProofs Sys2Proof.WaitProofs

theorem wordOf_ldVxDt (x : Reg) : WordOf (0xF007 + x.val * 256) (.ldVxDt x) :=
  wordOf_familyF (kk := 0x07#8) (by simp [decodeFamilyF])

theorem wordOf_ldDtVx (x : Reg) : WordOf (0xF015 + x.val * 256) (.ldDtVx x) :=
  wordOf_familyF (kk := 0x15#8) (by simp [decodeFamilyF])

theorem wordOf_ldStVx (x : Reg) : WordOf (0xF018 + x.val * 256) (.ldStVx x) :=
  wordOf_familyF (kk := 0x18#8) (by simp [decodeFamilyF])

theorem wordOf_rnd (x : Reg) (kk : Byte) : WordOf (0xC000 + x.val * 256 + kk.toNat) (.rnd x kk) := by
  have hw : BitVec.ofNat 16 (0xC000 + x.val * 256 + kk.toNat) = encodeRegByte 0xC#4 x kk :=
    ofNat_eq_encodeRegByte 0xC#4 x kk
  rw [WordOf, hw, decodeWord_familyC (fieldFamily_encodeRegByte _ _ _), fieldX_encodeRegByte, fieldKk_encodeRegByte]

/-- Settles O59: each meaning is one write of Vx, DT or ST. -/
theorem timerTransfers : Obligations.TimerTransfers := fun s x =>
  ⟨⟨wordOf_ldVxDt x, _, rfl, s.readV_writeV_self x s.dt, regFrame_writeV s x s.dt⟩,
    ⟨wordOf_ldDtVx x, s.setDt (s.readV x), rfl, rfl, fun _ _ => rfl, fun _ => rfl, rfl⟩,
    ⟨wordOf_ldStVx x, s.setSt (s.readV x), rfl, rfl, fun _ _ => rfl, fun _ => rfl, rfl⟩⟩

/-- Settles O60: the meaning uses up a draw and writes Vx once. -/
theorem randomAnd : Obligations.RandomAnd := by
  intro s x kk
  obtain ⟨hregs, -, -⟩ := regFrame_writeV s.drawn x (s.randomByte &&& kk)
  exact ⟨wordOf_rnd x kk, _, rfl, State.readV_writeV_self _ x _, rfl, hregs, fun _ => rfl, rfl⟩

end Sys2Proof.TimerProofs
end

section
/-! The draw (46_display.md): the model's loops over rows and columns are one list of toggles, and what a list of toggles
does to every cell of the bitmap. -/

namespace Sys2Proof.DrawProofs

open Sys2Proof Sys2Proof.Machine Sys2Proof.Statements Sys2Proof.CallAndSkipProofs

/-! ### The loops as a list of toggles -/

theorem runToggles_append (l l' : List (Nat × Nat)) (d : Display) (e : Bool) :
    runToggles (l ++ l') d e = runToggles l' (runToggles l d e).1 (runToggles l d e).2 := by
  induction l generalizing d e with
  | nil => rfl
  | cons p rest ih => exact ih _ _

/-- The columns of a row that have a set bit, in ascending order, at their coordinates (R215). -/
def rowToggles (row : Byte) (vx y cols : Nat) : List (Nat × Nat) :=
  ((List.range cols).filter fun col => row.getLsbD (7 - col)).map fun col => (vx + col, y)

theorem rowToggles_succ (row : Byte) (vx y c : Nat) : rowToggles row vx y (c + 1) =
    rowToggles row vx y c ++ if row.getLsbD (7 - c) then [(vx + c, y)] else [] := by
  simp only [rowToggles, List.range_succ, List.filter_append, List.map_append, List.filter_singleton]
  cases row.getLsbD (7 - c) <;> rfl

theorem drawColumns_eq (row : Byte) (vx y cols : Nat) (acc : Display × Bool) :
    drawColumns row vx y cols acc = runToggles (rowToggles row vx y cols) acc.1 acc.2 := by
  induction cols with
  | zero => rfl
  | succ c ih =>
    rw [drawColumns, ih, rowToggles_succ, runToggles_append]
    split <;> rfl

/-- The sprite's toggles are those of its rows (R214). -/
theorem spriteToggles_succ (s : State) (x y : Reg) (r : Nat) : spriteToggles s x y (r + 1) =
    spriteToggles s x y r ++ rowToggles (s.readByte (s.ea r)) (s.readV x).toNat ((s.readV y).toNat + r) 8 := by
  simp only [spriteToggles, List.range_succ, List.flatMap_append, List.flatMap_singleton]
  rfl

theorem drawRows_eq (s : State) (x y : Reg) (n : Nat) :
    s.drawRows (s.readV x).toNat (s.readV y).toNat n = runToggles (spriteToggles s x y n) s.display false := by
  induction n with
  | zero => rfl
  | succ r ih => rw [State.drawRows, ih, drawColumns_eq, spriteToggles_succ, runToggles_append]

theorem exec_drw (s : State) (x y : Reg) (n : Fin 16) : exec (.drw x y n) s =
    .next ((s.setDisplay (runToggles (spriteToggles s x y n.val) s.display false).1).writeV 15
      (eraseFlag (runToggles (spriteToggles s x y n.val) s.display false).2)) := by
  rw [← drawRows_eq]
  rfl

theorem wordOf_drw (x y : Reg) (n : Fin 16) :
    WordOf (0xD000 + x.val * 256 + y.val * 16 + n.val) (.drw x y n) := by
  refine wordOf_of_toNat rfl ?_
  rw [encode, encodeRegReg_toNat, bitsOfReg_toNat]
  rfl

/-- Settles O55: the loops are the list of toggles, and VF is written once, from whether any erased a pixel. -/
theorem drawTogglesSprite : Obligations.DrawTogglesSprite := fun s x y n =>
  ⟨wordOf_drw x y n, _, exec_drw s x y n, rfl, State.readV_writeV_self _ _ _,
    fun _ hr => State.readV_writeV_ne _ (List.ne_of_not_mem_cons hr) _, fun _ => rfl, rfl⟩

/-! ### The cells after a list of toggles -/

theorem runToggles_cell (l : List (Nat × Nat)) (d : Display) (e : Bool) (p q : Nat) :
    (runToggles l d e).1.cell p q = d.cell p q := by
  induction l generalizing d e with
  | nil => rfl
  | cons t rest ih => exact ih _ _

theorem runToggles_size (l : List (Nat × Nat)) (d : Display) (e : Bool) :
    (runToggles l d e).1.width = d.width ∧ (runToggles l d e).1.height = d.height := by
  induction l generalizing d e with
  | nil => exact ⟨rfl, rfl⟩
  | cons t rest ih => exact ih _ _

theorem runToggles_wf (l : List (Nat × Nat)) {d : Display} (e : Bool) (h : d.wf = true) :
    (runToggles l d e).1.wf = true := by
  induction l generalizing d e with
  | nil => exact h
  | cons t rest ih => exact ih _ (d.wf_toggle h t.1 t.2)

/-- The cell a toggle of the list changes. -/
def cellOf (d : Display) (t : Nat × Nat) : Nat := d.cell t.1 t.2

/-- A cell is lit after the toggles exactly where it was lit before them and they name it an even number of times, or was
not and they name it an odd number of times (R211). -/
theorem mem_lit_runToggles (l : List (Nat × Nat)) {d : Display} (e : Bool) (h : d.wf = true) (k : Nat) :
    k ∈ (runToggles l d e).1.lit ↔ (k ∈ d.lit ↔ Even ((l.map (cellOf d)).count k)) := by
  induction l generalizing d e with
  | nil => simp [runToggles]
  | cons t rest ih =>
    have hlit := mem_flipCell ((Display.wf_iff d).mp h).2.2 (cellOf d t) k
    have hcells : rest.map (cellOf (d.toggle t.1 t.2).1) = rest.map (cellOf d) := rfl
    have hcell : d.cell t.1 t.2 = cellOf d t := rfl
    rw [runToggles, ih _ (d.wf_toggle h t.1 t.2), hcells, Display.toggle_lit, hcell, hlit, List.map_cons]
    by_cases hk : k = cellOf d t
    · rw [if_pos hk, hk, List.count_cons_self, Nat.even_add_one]
      tauto
    · rw [if_neg hk, List.count_cons_of_ne (Ne.symm hk)]

/-- A pixel after toggles of cells that are all different. -/
theorem pixel_runToggles {l : List (Nat × Nat)} {d : Display} (e : Bool) (h : d.wf = true)
    (hl : (l.map (cellOf d)).Nodup) (p q : Nat) : (runToggles l d e).1.pixel p q =
      if d.cell p q ∈ l.map (cellOf d) then !d.pixel p q else d.pixel p q := by
  have hmem := mem_lit_runToggles l e h (d.cell p q)
  rw [Bool.eq_iff_iff, Display.pixel, List.contains_iff_mem, runToggles_cell, hmem]
  split
  · next hin => rw [List.count_eq_one_of_mem hl hin]; simp [Display.pixel]
  · next hin => rw [List.count_eq_zero_of_not_mem hin]; simp [Display.pixel]

/-- With all cells different, a pixel was erased exactly where one of them was lit before the draw. -/
theorem erased_runToggles {l : List (Nat × Nat)} {d : Display} (e : Bool) (h : d.wf = true)
    (hl : (l.map (cellOf d)).Nodup) :
    (runToggles l d e).2 = true ↔ e = true ∨ ∃ t ∈ l, d.pixel t.1 t.2 = true := by
  induction l generalizing d e with
  | nil => simp [runToggles]
  | cons t rest ih =>
    obtain ⟨hnot, hrest⟩ := List.nodup_cons.mp hl
    have hcells : rest.map (cellOf (d.toggle t.1 t.2).1) = rest.map (cellOf d) := rfl
    have hpixel (u : Nat × Nat) (hu : u ∈ rest) : (d.toggle t.1 t.2).1.pixel u.1 u.2 = d.pixel u.1 u.2 := by
      rw [d.pixel_toggle h, if_neg]
      exact fun hc => hnot (List.mem_map.mpr ⟨u, hu, hc⟩)
    have hex : (∃ u ∈ rest, (d.toggle t.1 t.2).1.pixel u.1 u.2 = true) ↔ ∃ u ∈ rest, d.pixel u.1 u.2 = true :=
      exists_congr fun u => and_congr_right fun hu => by rw [hpixel u hu]
    rw [runToggles, ih _ (d.wf_toggle h _ _) hrest, hex, Display.toggle_erased, Bool.or_eq_true, List.exists_mem_cons_iff,
      or_assoc]

/-! ### Toggling twice -/

theorem pairwise_lt_of_litFrom {low size : Nat} {l : List Nat} (h : litFrom low size l = true) :
    l.Pairwise (· < ·) := by
  induction l generalizing low with
  | nil => exact List.Pairwise.nil
  | cons j rest ih =>
    simp only [litFrom, Bool.and_eq_true, decide_eq_true_eq] at h
    obtain ⟨-, hrest⟩ := h
    refine List.Pairwise.cons (fun k hk => ?_) (ih hrest)
    by_contra hle
    exact not_mem_of_litFrom hrest (by omega) hk

/-- A bitmap in canonical form is determined by its lit cells. -/
theorem lit_ext {low low' size size' : Nat} {l l' : List Nat} (h : litFrom low size l = true)
    (h' : litFrom low' size' l' = true) (hmem : ∀ k, k ∈ l ↔ k ∈ l') : l = l' := by
  have hp := pairwise_lt_of_litFrom h
  have hp' := pairwise_lt_of_litFrom h'
  have hperm : l.Perm l' := (List.perm_ext_iff_of_nodup (hp.imp Nat.ne_of_lt) (hp'.imp Nat.ne_of_lt)).mpr hmem
  exact hperm.eq_of_pairwise (fun _ _ _ _ hab hba => absurd hab (Nat.lt_asymm hba)) hp hp'

/-- The same toggles a second time restore the display (R214). -/
theorem runToggles_runToggles (l : List (Nat × Nat)) {d : Display} (e e' : Bool) (h : d.wf = true) :
    (runToggles l (runToggles l d e).1 e').1 = d := by
  have h1 := runToggles_wf l e h
  have h2 := runToggles_wf l e' h1
  obtain ⟨hw1, hh1⟩ := runToggles_size l d e
  obtain ⟨hw2, hh2⟩ := runToggles_size l (runToggles l d e).1 e'
  have hcells : l.map (cellOf (runToggles l d e).1) = l.map (cellOf d) :=
    List.map_congr_left fun t _ => runToggles_cell l d e t.1 t.2
  have hlit : (runToggles l (runToggles l d e).1 e').1.lit = d.lit := by
    refine lit_ext ((Display.wf_iff _).mp h2).2.2 ((Display.wf_iff d).mp h).2.2 fun k => ?_
    rw [mem_lit_runToggles l e' h1, mem_lit_runToggles l e h, hcells]
    tauto
  calc (runToggles l (runToggles l d e).1 e').1
      = ⟨d.width, d.height, d.lit⟩ := by rw [← hw1, ← hw2, ← hh1, ← hh2, ← hlit]
    _ = d := rfl

/-- The first draw changes neither the sprite nor the place of the second. -/
theorem spriteToggles_after_draw (s : State) {x y : Reg} (hx : x ≠ 15) (hy : y ≠ 15) (n : Nat) (d : Display) (b : Byte) :
    spriteToggles ((s.setDisplay d).writeV 15 b) x y n = spriteToggles s x y n := by
  rw [spriteToggles, State.readV_writeV_ne _ hx, State.readV_writeV_ne _ hy]
  rfl

/-- Settles O57: both draws run the same list of toggles. -/
theorem drawTwiceRestores : Obligations.DrawTwiceRestores := by
  intro s x y n hd hx hy
  refine ⟨_, _, exec_drw s x y n, exec_drw _ x y n, ?_⟩
  rw [State.writeV_display, State.setDisplay_display, spriteToggles_after_draw s hx hy]
  exact runToggles_runToggles _ _ _ hd

/-! ### A sprite on a display at least as large -/

/-- Two coordinate pairs name the same cell where they agree modulo the width and the height. -/
theorem cell_eq_iff {d : Display} (hw : 0 < d.width) (p q p' q' : Nat) :
    d.cell p q = d.cell p' q' ↔ p % d.width = p' % d.width ∧ q % d.height = q' % d.height := by
  constructor
  · intro h
    have hp : p % d.width = p' % d.width := by
      have hmod := congrArg (· % d.width) h
      simpa only [Display.cell, Nat.mul_add_mod_self_right, Nat.mod_mod] using hmod
    simp only [Display.cell, hp, Nat.add_right_cancel_iff] at h
    exact ⟨hp, Nat.eq_of_mul_eq_mul_right hw h⟩
  · rintro ⟨hp, hq⟩
    rw [Display.cell, Display.cell, hp, hq]

theorem mem_spriteToggles {s : State} {x y : Reg} {n : Nat} {t : Nat × Nat} : t ∈ spriteToggles s x y n ↔
    ∃ row col, row < n ∧ col < 8 ∧ spriteBit s row col = true ∧
      t = ((s.readV x).toNat + col, (s.readV y).toNat + row) := by
  simp only [spriteToggles, List.mem_flatMap, List.mem_map, List.mem_filter, List.mem_range]
  constructor
  · rintro ⟨row, hrow, col, ⟨hcol, hbit⟩, rfl⟩
    exact ⟨row, col, hrow, hcol, hbit, rfl⟩
  · rintro ⟨row, col, hrow, hcol, hbit, rfl⟩
    exact ⟨row, hrow, col, ⟨hcol, hbit⟩, rfl⟩

theorem nodup_spriteToggles (s : State) (x y : Reg) (n : Nat) : (spriteToggles s x y n).Nodup := by
  refine List.nodup_flatMap.mpr ⟨fun row _ => ?_, List.nodup_range.imp fun hne => ?_⟩
  · refine (List.nodup_range.filter _).map fun col col' h => ?_
    simpa using h
  · intro t ht ht'
    simp only [List.mem_map, List.mem_filter] at ht ht'
    obtain ⟨col, -, rfl⟩ := ht
    obtain ⟨col', -, h⟩ := ht'
    simp only [Prod.mk.injEq] at h
    omega

theorem eq_of_add_mod_eq {v c c' m : Nat} (hc : c < m) (hc' : c' < m) (h : (v + c) % m = (v + c') % m) : c = c' := by
  have hmod : c % m = c' % m := Nat.ModEq.add_left_cancel' v h
  rwa [Nat.mod_eq_of_lt hc, Nat.mod_eq_of_lt hc'] at hmod

/-- No two toggles of a sprite meet in a cell. -/
theorem nodup_cells {s : State} (x y : Reg) {n : Nat} (hw : 8 ≤ s.display.width) (hn : n ≤ s.display.height) :
    ((spriteToggles s x y n).map (cellOf s.display)).Nodup := by
  refine List.Nodup.map_on (fun t ht t' ht' h => ?_) (nodup_spriteToggles s x y n)
  obtain ⟨row, col, hrow, hcol, -, rfl⟩ := mem_spriteToggles.mp ht
  obtain ⟨row', col', hrow', hcol', -, rfl⟩ := mem_spriteToggles.mp ht'
  obtain ⟨hx, hy⟩ := (cell_eq_iff (by omega) _ _ _ _).mp h
  rw [eq_of_add_mod_eq (by omega) (by omega) hx, eq_of_add_mod_eq (by omega) (by omega) hy]

/-- The cells the sprite toggles are those it covers (R211). -/
theorem cell_mem_iff_covers {s : State} {x y : Reg} {n p q : Nat} (hp : p < s.display.width) (hq : q < s.display.height) :
    s.display.cell p q ∈ (spriteToggles s x y n).map (cellOf s.display) ↔ Covers s x y n p q := by
  have hw : 0 < s.display.width := by omega
  simp only [List.mem_map, mem_spriteToggles, Covers]
  constructor
  · rintro ⟨t, ⟨row, col, hrow, hcol, hbit, rfl⟩, hcell⟩
    obtain ⟨hx, hy⟩ := (cell_eq_iff hw _ _ _ _).mp hcell
    rw [Nat.mod_eq_of_lt hp] at hx
    rw [Nat.mod_eq_of_lt hq] at hy
    exact ⟨row, col, hrow, hcol, hbit, hx, hy⟩
  · rintro ⟨row, col, hrow, hcol, hbit, rfl, rfl⟩
    exact ⟨_, ⟨row, col, hrow, hcol, hbit, rfl⟩,
      (cell_eq_iff hw _ _ _ _).mpr ⟨(Nat.mod_mod _ _).symm, (Nat.mod_mod _ _).symm⟩⟩

/-- A toggled pixel was lit exactly where a covered one was. -/
theorem exists_lit_toggle_iff {s : State} (x y : Reg) (n : Nat) (hw : 0 < s.display.width) (hh : 0 < s.display.height) :
    (∃ t ∈ spriteToggles s x y n, s.display.pixel t.1 t.2 = true) ↔
      ∃ p q, p < s.display.width ∧ q < s.display.height ∧ Covers s x y n p q ∧ s.display.pixel p q = true := by
  constructor
  · rintro ⟨t, ht, hlit⟩
    obtain ⟨row, col, hrow, hcol, hbit, rfl⟩ := mem_spriteToggles.mp ht
    refine ⟨_, _, Nat.mod_lt _ hw, Nat.mod_lt _ hh, ⟨row, col, hrow, hcol, hbit, rfl, rfl⟩, ?_⟩
    rw [← hlit, Display.pixel, Display.pixel]
    exact congrArg _ ((cell_eq_iff hw _ _ _ _).mpr ⟨Nat.mod_mod _ _, Nat.mod_mod _ _⟩)
  · rintro ⟨p, q, hp, hq, hcov, hlit⟩
    obtain ⟨t, ht, hcell⟩ := List.mem_map.mp ((cell_mem_iff_covers hp hq).mpr hcov)
    refine ⟨t, ht, ?_⟩
    rw [← hlit, Display.pixel, Display.pixel]
    exact congrArg _ hcell

theorem eraseFlag_eq_one_iff (e : Bool) : eraseFlag e = 1 ↔ e = true := by
  cases e <;> decide

theorem eraseFlag_zero_or_one (e : Bool) : eraseFlag e = 0 ∨ eraseFlag e = 1 := by
  cases e <;> decide

/-- Settles O56: no two toggles meet, so each covered pixel is inverted once, and was erased where it was lit. -/
theorem drawIsExclusiveOr : Obligations.DrawIsExclusiveOr := by
  intro s x y n hd hw hn
  obtain ⟨hw0, hh0, -⟩ := (Display.wf_iff _).mp hd
  have hnodup := nodup_cells x y hw hn
  refine ⟨_, exec_drw s x y n, fun p q hp hq => ?_, ?_, ?_⟩
  · have hpixel := pixel_runToggles false hd hnodup p q
    have hiff := cell_mem_iff_covers (x := x) (y := y) (n := n.val) hp hq
    exact ⟨fun hcov => hpixel.trans (if_pos (hiff.mpr hcov)), fun hcov => hpixel.trans (if_neg (mt hiff.mp hcov))⟩
  · rw [State.readV_writeV_self, eraseFlag_eq_one_iff, erased_runToggles false hd hnodup, exists_lit_toggle_iff x y _ hw0 hh0]
    simp only [Bool.false_eq_true, false_or]
  · rw [State.readV_writeV_self]
    exact eraseFlag_zero_or_one _

end Sys2Proof.DrawProofs
end
